-- ==== Sys2Proof/Word.lean ====
section
/-! DEFINITION. The widths of the block's words and fields (spec/00_scope.md R11). -/

namespace Sys2Proof

/-- `W = 32`: a request word or a response word (R11, R90). -/
abbrev Word := BitVec 32

/-- `PINW = 24`: a pin id, or the sentinel `noPin` (R11, R51). -/
abbrev PinId := BitVec 24

/-- `DURW = 24`: a strong pull-up duration in TICKs, unsigned (R11, R24). -/
abbrev Duration := BitVec 24

/-- `HANDLEW = 24`: a registration handle, opaque (R11, R25, R105). -/
abbrev Handle := BitVec 24

/-- The 24-bit `value` field of a response (R93). -/
abbrev Value := BitVec 24

/-- One bit: a pin level, the operand of WRITE_BIT, the argument of `CapSet` (R50, R68, R97). -/
abbrev Bit := BitVec 1

/-- `NONE = 0xFFFFFF`, which is no pin id (R11, R51). -/
def noPin : PinId := 0xFFFFFF#24

end Sys2Proof
end

