-- ==== Sys2Proof/Config.lean ====
section
/-! DEFINITION. What is fixed from outside the block, and the free values (spec/00_scope.md R10, R11, R17;
spec/93_implementation_defined.md). The parameters are plain data that State carries, so that a statement about every
state is a statement about every board; the draws are constants with no body. -/

namespace Sys2Proof

/-- The signaling mode (R10, R23): `OD = 0`, `DRV = 1`; the number is never transmitted. -/
inductive Mode where
  /-- Open-drain: a 1 is written by releasing the line. -/
  | od
  /-- Driven (push-pull): the output level is written. -/
  | drv
  deriving DecidableEq, Repr

/-- The board's parameters of R11 that some rule reads. `TICK` is not here: no rule depends on its value. -/
structure Board where
  /-- `NPINS`: the legal pin ids are `0 <= p < npins`. As a 24-bit number it is at most `0xFFFFFF` (R11, R52). -/
  npins : BitVec 24
  /-- `PULLUP_PRESENT`: the board has a pull-up network on the main line. -/
  pullupPresent : Bool
  /-- `PAD_OD`: the pad of the main pin is itself open-drain (from general knowledge, default false: G1). -/
  padOd : Bool
  deriving DecidableEq, Repr

/-- The static descriptor: the four straps as the platform presents them at RESET (R10, R235). -/
structure Descriptor where
  mainPin : PinId
  auxPin : PinId
  mode : Mode
  cap : Bool
  deriving DecidableEq, Repr

/-- The engine's answer to `EngRegister` (R66). -/
inductive EngAnswer where
  /-- Registered, with any handle. -/
  | ok (h : Handle)
  /-- The engine rejects the registration. -/
  | error
  deriving DecidableEq, Repr, Inhabited

/-- FREE VALUE (notes/assumptions/4): the level `PinGet` returns where the line model does not determine it (R64). -/
opaque Config.lineDraw : Nat → Bit

/-- FREE VALUE (notes/assumptions/5): the engine's answer to a registration whose answer State does not list (R66). -/
opaque Config.engDraw : Nat → EngAnswer

/-- FREE VALUE (notes/assumptions/6): which of several outstanding requests is served next where State's agenda does
not say (R75). -/
opaque Config.arbiter : Nat → Nat

end Sys2Proof
end

