-- ==== Sys2Proof/Syntax.lean ====
section
/-! DEFINITION. The eight commands, one constructor per row of spec/opcode_table.json (spec/30_encoding.md R95), the
ports they arrive on, the pseudo-commands and the textual forms (R107, R108). Every operand's width is carried by its
type, so there is no instruction term outside the encodable ones. -/

namespace Sys2Proof

/-- The three request ports (R90). -/
inductive PortId where
  /-- Control Channel. -/
  | cc
  /-- Bit Transfer Interface. -/
  | bt
  /-- Power Hooks. -/
  | pm
  deriving DecidableEq, Repr

/-- One command (R95); which ports carry it is `Instr.port`. -/
inductive Instr where
  /-- BIND pin (R160): any 24-bit operand is a legal word (R96). -/
  | bind (pin : PinId)
  /-- UNBIND (R161). -/
  | unbind
  /-- QUERYPIN (R162). -/
  | querypin
  /-- READ_BIT (R120). -/
  | readBit
  /-- WRITE_BIT v (R121). -/
  | writeBit (v : Bit)
  /-- SET_PULLUP d (R122): `d != 0` arms, `d = 0` fires (R98). -/
  | setPullup (d : Duration)
  /-- SUSPEND (R180). -/
  | suspend
  /-- RESUME (R181). -/
  | resume
  deriving DecidableEq, Repr

/-- The port whose requester may issue the command (R92, R95, R210). -/
def Instr.port : Instr → PortId
  | .bind _ => .cc
  | .unbind => .cc
  | .querypin => .cc
  | .readBit => .bt
  | .writeBit _ => .bt
  | .setPullup _ => .bt
  | .suspend => .pm
  | .resume => .pm

/-- A command on the port it arrives on. -/
structure Request where
  port : PortId
  instr : Instr
  deriving DecidableEq, Repr

/-- The pseudo-commands of R108. -/
inductive Pseudo where
  /-- REBIND p. -/
  | rebind (p : PinId)
  /-- STRONG_PULLUP d, with the bit-transfer commands the engine schedules between arming and firing. -/
  | strongPullup (d : Duration) (between : List Instr)
  deriving DecidableEq, Repr

/-- The exact expansion of a pseudo-command; the block sees only the expansion (R108). -/
def Pseudo.expand : Pseudo → List Instr
  | .rebind p => [.unbind, .bind p]
  | .strongPullup d between => [.setPullup d] ++ between ++ [.setPullup 0]

/-- The port's name as a textual prefix (R107). -/
def PortId.text : PortId → String
  | .cc => "CC"
  | .bt => "BT"
  | .pm => "PM"

/-- A command's textual form: its mnemonic and its operand in decimal (R107). -/
def Instr.text : Instr → String
  | .bind pin => "BIND " ++ toString pin.toNat
  | .unbind => "UNBIND"
  | .querypin => "QUERYPIN"
  | .readBit => "READ_BIT"
  | .writeBit v => "WRITE_BIT " ++ toString v.toNat
  | .setPullup d => "SET_PULLUP " ++ toString d.toNat
  | .suspend => "SUSPEND"
  | .resume => "RESUME"

/-- A command with its port's name before it (R107). -/
def Request.text (r : Request) : String := r.port.text ++ ": " ++ r.instr.text

end Sys2Proof
end

