-- ==== Sys2Proof/WellFormed.lean ====
section
/-! DEFINITION. What a well-formed request, board and pseudo-command are. An instruction's operands are of the width the
encoding gives them by their types (spec/30_encoding.md R96 to R99), so nothing is left to check there. -/

namespace Sys2Proof

/-- A request is well-formed if the command arrives on the port of its class (R92). -/
def Request.wf (r : Request) : Bool := r.port == r.instr.port

/-- `1 <= NPINS <= 0xFFFFFF` (R11); the upper bound is the width's. -/
def Board.wf (b : Board) : Bool := b.npins != 0

/-- STRONG_PULLUP has `d != 0` and only bit-transfer commands between its two halves (R108). -/
def Pseudo.wf : Pseudo → Bool
  | .rebind _ => true
  | .strongPullup d between => d != 0 && between.all fun i => i.port == .bt

end Sys2Proof
end

