-- ==== Sys2Proof/Decode.lean ====
section
/-! DEFINITION. Request words to commands and back (spec/30_encoding.md R91 to R103). A request is one indivisible 32-bit
word (R69, R70, R103): there is no byte order. -/

namespace Sys2Proof

/-- Why a word is illegal on a port (R100, R102). Every reason has the one answer IllegalCommand. -/
inductive Illegal where
  /-- The class is not 1, 2 or 3. -/
  | unknownClass
  /-- The class is not its port's (R92). -/
  | wrongPort
  /-- The function is not one of its class. -/
  | unknownFunction
  /-- A must-be-zero operand bit is 1 (R97, R99). -/
  | operandNotZero
  deriving DecidableEq, Repr

/-- `cls = w[31:28]` (R91). -/
def clsField (w : Word) : BitVec 4 := w.extractLsb' 28 4

/-- `fn = w[27:24]` (R91). -/
def fnField (w : Word) : BitVec 4 := w.extractLsb' 24 4

/-- `arg = w[23:0]` (R91). -/
def argField (w : Word) : BitVec 24 := w.extractLsb' 0 24

/-- The class number of a port: 1 = CC, 2 = BT, 3 = PM (R91). -/
def PortId.cls : PortId → BitVec 4
  | .cc => 1
  | .bt => 2
  | .pm => 3

/-- The port a class number names, if any (R91). -/
def portOfCls (c : BitVec 4) : Option PortId :=
  if c = 1 then some .cc else if c = 2 then some .bt else if c = 3 then some .pm else none

/-- A command with no operand: the operand field must be 0 (R99). -/
def noOperand (arg : BitVec 24) (i : Instr) : Except Illegal Instr :=
  if arg = 0 then .ok i else .error .operandNotZero

/-- WRITE_BIT: the operand is bit 0 and bits 23:1 must be 0 (R97). -/
def writeBitOperand (arg : BitVec 24) : Except Illegal Instr :=
  if arg.extractLsb' 1 23 = 0 then .ok (.writeBit (arg.extractLsb' 0 1)) else .error .operandNotZero

/-- The functions of the Control Channel (R95). -/
def decodeCc (fn : BitVec 4) (arg : BitVec 24) : Except Illegal Instr :=
  if fn = 0 then .ok (.bind arg)
  else if fn = 1 then noOperand arg .unbind
  else if fn = 2 then noOperand arg .querypin
  else .error .unknownFunction

/-- The functions of the Bit Transfer Interface (R95). -/
def decodeBt (fn : BitVec 4) (arg : BitVec 24) : Except Illegal Instr :=
  if fn = 0 then noOperand arg .readBit
  else if fn = 1 then writeBitOperand arg
  else if fn = 2 then .ok (.setPullup arg)
  else .error .unknownFunction

/-- The functions of the Power Hooks (R95). -/
def decodePm (fn : BitVec 4) (arg : BitVec 24) : Except Illegal Instr :=
  if fn = 0 then noOperand arg .suspend
  else if fn = 1 then noOperand arg .resume
  else .error .unknownFunction

/-- The command a word stands for on the port it arrives on, or why it is illegal (R95, R100, R102). -/
def decode (p : PortId) (w : Word) : Except Illegal Instr :=
  match portOfCls (clsField w) with
  | none => .error .unknownClass
  | some q =>
    if q = p then
      match p with
      | .cc => decodeCc (fnField w) (argField w)
      | .bt => decodeBt (fnField w) (argField w)
      | .pm => decodePm (fnField w) (argField w)
    else .error .wrongPort

/-- The 8-bit opcode `op = cls ++ fn` (R91, R95). -/
def Instr.opcode : Instr → BitVec 8
  | .bind _ => 0x10
  | .unbind => 0x11
  | .querypin => 0x12
  | .readBit => 0x20
  | .writeBit _ => 0x21
  | .setPullup _ => 0x22
  | .suspend => 0x30
  | .resume => 0x31

/-- The operand field of a command's word (R96 to R99). -/
def Instr.operand : Instr → BitVec 24
  | .bind pin => pin
  | .unbind => 0
  | .querypin => 0
  | .readBit => 0
  | .writeBit v => v.setWidth 24
  | .setPullup d => d
  | .suspend => 0
  | .resume => 0

/-- The request word of a command (R91, R95). -/
def encode (i : Instr) : Word := i.opcode ++ i.operand

/-- One row of the opcode map: a word `w` selects it with `(w and mask) = pattern` (R95). -/
structure OpcodeRow where
  port : PortId
  pattern : Word
  mask : Word
  deriving DecidableEq, Repr

/-- The row of a command (R95). -/
def Instr.row : Instr → OpcodeRow
  | .bind _ => ⟨.cc, 0x10000000#32, 0xFF000000#32⟩
  | .unbind => ⟨.cc, 0x11000000#32, 0xFFFFFFFF#32⟩
  | .querypin => ⟨.cc, 0x12000000#32, 0xFFFFFFFF#32⟩
  | .readBit => ⟨.bt, 0x20000000#32, 0xFFFFFFFF#32⟩
  | .writeBit _ => ⟨.bt, 0x21000000#32, 0xFFFFFFFE#32⟩
  | .setPullup _ => ⟨.bt, 0x22000000#32, 0xFF000000#32⟩
  | .suspend => ⟨.pm, 0x30000000#32, 0xFFFFFFFF#32⟩
  | .resume => ⟨.pm, 0x31000000#32, 0xFFFFFFFF#32⟩

/-- The opcode map of R95, in the table's order. -/
def opcodeMap : List OpcodeRow :=
  [Instr.row (.bind 0), Instr.row .unbind, Instr.row .querypin, Instr.row .readBit,
   Instr.row (.writeBit 0), Instr.row (.setPullup 0), Instr.row .suspend, Instr.row .resume]

/-- A word on a port selects a row of the opcode map (R95). -/
def OpcodeRow.selects (r : OpcodeRow) (p : PortId) (w : Word) : Bool := r.port == p && (w &&& r.mask) == r.pattern

/-- A word given as its low `nbits` bits. -/
def tableWord (nbits w : Nat) : Word := BitVec.ofNat 32 (w % 2 ^ nbits)

/-- The command the decoder reads from a word, sent to the port its class names. -/
def decodeTableWord (nbits w : Nat) : Option Instr :=
  match portOfCls (clsField (tableWord nbits w)) with
  | none => none
  | some p => (decode p (tableWord nbits w)).toOption

end Sys2Proof
end

