-- ==== Sys2Proof/Machine/State.lean ====
section
/-! DEFINITION. The state of the block and of the surroundings it can meet (spec/10_state.md; agents in
spec/00_scope.md R12), the two kinds of stop, and the state after reset. -/

namespace Sys2Proof.Machine

/-- Who holds a pin (R30). -/
inductive Owner where
  | free
  /-- This block, as MAIN or AUX. -/
  | self
  /-- Some other user of the board. -/
  | other
  deriving DecidableEq, Repr

/-- The direction of a pin (R30). -/
inductive Dir where
  | input
  | output
  deriving DecidableEq, Repr

/-- One row of the pin table (R30), with the environment's bit for that line (R38). -/
structure Pin where
  owner : Owner
  dir : Dir
  /-- The level the pin drives while `dir` is output. -/
  out : Bit
  /-- `ext_low[p]`: some other device pulls the line low. -/
  extLow : Bool
  deriving DecidableEq, Repr

/-- The pin table: pin ids with their rows, ids strictly rising, no row equal to what an unlisted id reads as. -/
abbrev Memory := List (Nat × Pin)

/-- Status codes by name (R94). -/
inductive Status where
  | ok
  | invalidPin
  | alreadyBound
  | notBound
  | resourceUnavailable
  | registrationFailed
  | illegalCommand
  deriving DecidableEq, Repr

/-- The sequencer phase (R27): `IDLE = 0`, `PU_HOLD = 1`. -/
inductive Seq where
  | idle
  | puHold
  deriving DecidableEq, Repr

/-- The events of the output trace (R40). -/
inductive Event where
  | acq (p : PinId) (granted : Bool)
  | rel (p : PinId)
  | dirIn (p : PinId)
  | dirOut (p : PinId) (v : Bit)
  | set (p : PinId) (v : Bit)
  | get (p : PinId) (v : Bit)
  | reg (desc : BitVec 3) (answer : EngAnswer)
  | dereg (h : Handle)
  | cap (v : Bit)
  | wait (d : Duration)
  | resp (port : PortId) (status : Status) (value : Value)
  deriving DecidableEq, Repr

/-- A request port (R37): at most one outstanding request, and the response word that answered the last one. -/
structure PortState where
  /-- The outstanding request, from its issue to its response. -/
  req : Option Word
  /-- The response word the port shows; none from an issue to its answer, and after RESET (notes/assumptions/9). -/
  rsp : Option Word
  deriving DecidableEq, Repr

/-- One thing an agent of R12 does: the next steps of the machine are listed in the state's agenda. -/
inductive Move where
  /-- A requester (CC, ENG or PM) issues a word on its port (R37). -/
  | issue (p : PortId) (w : Word)
  /-- SEQR serves the outstanding request of a port (R74, R75). -/
  | serve (p : PortId)
  /-- SEQR serves the TEARDOWN signal (R150). -/
  | serveTeardown
  /-- One TICK passes (R250, R261). -/
  | tick
  /-- TMR ends the hold if it may (R125). -/
  | puExpire
  /-- PLAT signals TEARDOWN (R150). -/
  | teardown
  /-- PLAT signals RESET and presents the straps (R230, R235). -/
  | reset (d : Descriptor)
  /-- ENV tries to acquire a pin: it takes a free one (R60), and fails on a held one (R73). -/
  | envAcquire (p : PinId)
  /-- ENV gives back a pin, if it holds it (R31, R60). -/
  | envRelease (p : PinId)
  /-- ENV sets direction and level of a pin, if it holds it (R60). -/
  | envDrive (p : PinId) (d : Dir) (v : Bit)
  /-- A device on the line starts or stops pulling it low (R61). -/
  | envLine (p : PinId) (low : Bool)
  deriving DecidableEq, Repr

/-- The whole machine: the block's registers, the pin table, the ports, the trace, the timer, and as plain data what the
surroundings will do. -/
structure State where
  /-- MAIN (R21). -/
  main : PinId
  /-- AUX (R22). -/
  aux : PinId
  /-- MODE (R23). -/
  mode : Mode
  /-- PEND (R24). -/
  pend : Duration
  /-- HANDLE; `none` is NOHANDLE (R25). -/
  handle : Option Handle
  /-- PWR (R26). -/
  pwr : Bit
  /-- SEQ (R27). -/
  seq : Seq
  /-- BOOT (R28). -/
  boot : BitVec 4
  /-- CFG_MAIN_PIN (R29). -/
  cfgMainPin : PinId
  /-- CFG_AUX_PIN (R29). -/
  cfgAuxPin : PinId
  /-- CFG_MODE (R29). -/
  cfgMode : Mode
  /-- CFG_CAP (R29). -/
  cfgCap : Bool
  /-- The pin table (R30, R38). -/
  pins : Memory
  /-- The CC port (R37). -/
  cc : PortState
  /-- The BT port (R37). -/
  bt : PortState
  /-- The PM port (R37). -/
  pm : PortState
  /-- A TEARDOWN signal that has not been served (R150, R205). -/
  teardown : Bool
  /-- The output trace, oldest event first (R40). -/
  trace : List Event
  /-- TMR: TICKs since the hold began; 0 while there is no hold (R212, R261). -/
  elapsed : Nat
  /-- The board's parameters (R11); no step changes them. -/
  board : Board
  /-- The model's own: what the agents do next, first move first (R75; notes/assumptions/1). -/
  agenda : List Move
  /-- The model's own: the engine's next answers, first answer first (R66; notes/assumptions/5). -/
  answers : List EngAnswer
  /-- The model's own: how many free values have been taken (notes/assumptions/4). -/
  draws : Nat
  deriving DecidableEq, Repr

/-- There is no fault: the block never traps or halts (R16), and no access can miss (R265). -/
inductive Fault where
  deriving DecidableEq, Repr

/-- Why the model gives a situation no meaning. No instruction's meaning ends in one of them on a path a run can take. -/
inductive Refusal where
  /-- An instruction that has no meaning yet; raised by an arm of `exec` only. Safe. -/
  | notModelled (mnemonic : String)
  /-- A requester issues a request on a port whose previous request has no response yet (R37, U11); raised by the move
  `issue`. Safe. -/
  | portBusy
  /-- HW_EXIT called on an unbound binding (R149, U6); raised by `hwExit`, whose callers never call it so. Safe. -/
  | hwExitUnbound
  /-- HW_EXIT called during a hold, against its precondition (R147); raised by `hwExit`, whose callers never call it
  so. Safe. -/
  | hwExitHolding
  deriving DecidableEq, Repr

/-- What a pin that the table does not list reads as: FREE, input, level 0, nobody pulling low. DESIGN CHOICE
(notes/assumptions/2): R41 and R232 leave every pin's row at power-on to the platform. -/
def Pin.unlisted : Pin := ⟨.free, .input, 0, false⟩

/-- An idle port (R37, R41). -/
def PortState.idle : PortState := ⟨none, none⟩

/-- After RESET and before the startup HW_INIT (R41), on a board with these parameters and straps, with this pin table
and these answers to come. BOOT is written by the startup sequence. -/
def State.powerOn (b : Board) (d : Descriptor) (pins : Memory) (answers : List EngAnswer) : State :=
  { main := noPin, aux := noPin, mode := d.mode, pend := 0, handle := none, pwr := 0, seq := .idle, boot := 0
    cfgMainPin := d.mainPin, cfgAuxPin := d.auxPin, cfgMode := d.mode, cfgCap := d.cap
    pins := pins, cc := .idle, bt := .idle, pm := .idle, teardown := false, trace := [], elapsed := 0
    board := b, agenda := [], answers := answers, draws := 0 }

/-- The board of State.reset: configuration A of spec/95_test_vectors.md. DESIGN CHOICE (notes/assumptions/3): R11 leaves
the parameters open. -/
def Board.confA : Board := ⟨32, true, false⟩

/-- The straps of State.reset: configuration A of spec/95_test_vectors.md. DESIGN CHOICE (notes/assumptions/3): R10 gives
the straps no default. -/
def Descriptor.confA : Descriptor := ⟨noPin, noPin, .od, false⟩

/-- The machine right after RESET and STARTUP with no static binding (R41, R233: `CFG_MAIN_PIN = NONE`, so BOOT is OK and no
HW_INIT is attempted). -/
def State.reset : State := State.powerOn Board.confA Descriptor.confA [] []

end Sys2Proof.Machine
end

