-- ==== Sys2Proof/Machine/PinTable.lean ====
section
/-! DEFINITION. The pin table, the block's one addressable space (spec/20_memory.md R50), as a list in canonical form: ids
strictly rising, and no row equal to what an unlisted id reads as. -/

namespace Sys2Proof.Machine

/-- The row at a pin id. -/
def Memory.read : Memory → Nat → Pin
  | [], _ => Pin.unlisted
  | (k, v) :: rest, a => if a = k then v else Memory.read rest a

/-- A row put before the rest of the table, unless it is what an unlisted id reads as. -/
def Memory.cons (k : Nat) (v : Pin) (rest : Memory) : Memory := if v = Pin.unlisted then rest else (k, v) :: rest

/-- The table without the rows of one pin id. -/
def Memory.erase (m : Memory) (a : Nat) : Memory := m.filter fun e => decide (e.1 ≠ a)

/-- A row put where its id belongs. -/
def Memory.insert : Memory → Nat → Pin → Memory
  | [], a, v => Memory.cons a v []
  | (k, u) :: rest, a, v =>
    if a < k then Memory.cons a v ((k, u) :: rest) else (k, u) :: Memory.insert rest a v

/-- Replace the row at a pin id, keeping the canonical form. -/
def Memory.write (m : Memory) (a : Nat) (v : Pin) : Memory := Memory.insert (Memory.erase m a) a v

/-- Every id of the table is above this one. -/
def Memory.above (a : Nat) (m : Memory) : Bool := m.all fun e => decide (a < e.1)

/-- The canonical form. -/
def Memory.wf : Memory → Bool
  | [] => true
  | (k, v) :: rest => v != Pin.unlisted && Memory.above k rest && Memory.wf rest

/-- One pin's row (R30). -/
def State.pin (s : State) (p : PinId) : Pin := Memory.read s.pins p.toNat

end Sys2Proof.Machine
end

