-- ==== Sys2Proof/Machine/Flags.lean ====
section
/-! DEFINITION. The block has no condition codes (spec/10_state.md R33). The predicates and values its rules derive from
the registers: BOUND, LIVE, ARMED, HOLDING, STRAT, PUCAP, the control state (spec/45_command_laws.md R262), and the level of
a line (spec/20_memory.md R64, R65). -/

namespace Sys2Proof.Machine

/-- `BOUND = (MAIN != NONE)` (R33). -/
def State.bound (s : State) : Bool := s.main != noPin

/-- `LIVE = (HANDLE != NOHANDLE)` (R33). -/
def State.live (s : State) : Bool := s.handle.isSome

/-- `ARMED = (PEND != 0)` (R33). -/
def State.armed (s : State) : Bool := s.pend != 0

/-- `HOLDING = (SEQ = PU_HOLD)` (R33). -/
def State.holding (s : State) : Bool := s.seq == .puHold

/-- The installed write strategy (R34). -/
inductive Strat where
  /-- WR_DIR: write by switching direction. -/
  | wrDir
  /-- WR_VAL: write the output level. -/
  | wrVal
  deriving DecidableEq, Repr

/-- `STRAT` (R34). -/
def State.strat (s : State) : Strat :=
  match s.mode with
  | .od => .wrDir
  | .drv => .wrVal

/-- `PUCAP = (MODE = OD)` (R34). -/
def State.pucap (s : State) : Bool := s.mode == .od

/-- The control state (R262). The fourth combination, unbound in a hold, is unreachable (R35 (1)). -/
inductive Control where
  /-- U: unbound, idle. -/
  | unbound
  /-- B: bound, idle. -/
  | bound
  /-- H: bound, in a hold. -/
  | hold
  /-- MAIN = NONE with SEQ = PU_HOLD; no run reaches it. -/
  | unreachable
  deriving DecidableEq, Repr

/-- The pair (BOUND, SEQ) (R262). -/
def State.control (s : State) : Control :=
  match s.main == noPin, s.seq with
  | true, .idle => .unbound
  | false, .idle => .bound
  | false, .puHold => .hold
  | true, .puHold => .unreachable

/-- `pullup_eff(p)`: the board has a pull-up network on the main line and every configured means of powering it is on
(R65). -/
def pullupEff (s : State) (p : PinId) : Bool :=
  p == s.main && s.board.pullupPresent && (!s.cfgCap || s.pwr == 1) &&
    (s.aux == noPin || ((s.pin s.aux).dir == .output && (s.pin s.aux).out == 1))

/-- `Level(p)`: the level of the line, `none` where R64 says `draw`. -/
def lineLevel (s : State) (p : PinId) : Option Bit :=
  match (s.pin p).dir with
  | .output =>
    if (s.pin p).out = 0 then some 0
    else if (s.pin p).extLow = false then some 1
    else if s.board.padOd then some 0
    else none
  | .input =>
    if (s.pin p).extLow then some 0
    else if pullupEff s p then some 1
    else none

end Sys2Proof.Machine
end

