-- ==== Sys2Proof/Machine/Operands.lean ====
section
/-! DEFINITION. Values on their way in and out of a command: status codes, the response word, the register descriptor, the
effective aux operand (spec/30_encoding.md R93, R94, R104; spec/45_command_laws.md R260, R265). -/

namespace Sys2Proof.Machine

/-- The status codes (R94, R190, R196). -/
def Status.code : Status → BitVec 4
  | .ok => 0
  | .invalidPin => 1
  | .alreadyBound => 2
  | .notBound => 3
  | .resourceUnavailable => 4
  | .registrationFailed => 5
  | .illegalCommand => 15

/-- The status as a response is written, for R107's `-> ErrorName`. -/
def Status.text : Status → String
  | .ok => "OK"
  | .invalidPin => "InvalidPin"
  | .alreadyBound => "AlreadyBound"
  | .notBound => "NotBound"
  | .resourceUnavailable => "ResourceUnavailable"
  | .registrationFailed => "RegistrationFailed"
  | .illegalCommand => "IllegalCommand"

/-- A response's textual form (R107): `-> OK value` or `-> ErrorName`. -/
def responseText (st : Status) (v : Value) : String :=
  if st = .ok then "-> OK " ++ toString v.toNat else "-> " ++ st.text

/-- The response word `status ++ 0b0000 ++ value` (R93). -/
def responseWord (st : Status) (v : Value) : Word := st.code ++ 0#4 ++ v

/-- `zext_24`: a level in the value field of a response (R120, R260). -/
def levelValue (v : Bit) : Value := v.setWidth 24

/-- The registration descriptor of a mode: set_pullup is installed only in open-drain mode (R104). -/
def descriptorOf (m : Mode) : BitVec 3 :=
  match m with
  | .od => 0b111
  | .drv => 0b011

/-- `pin_valid(p) = (p < NPINS)` (R52). -/
def pinValid (s : State) (p : PinId) : Bool := p.ult s.board.npins

/-- The aux operand of HW_INIT as it counts: itself if supplied and valid, else none (R143: `have_aux`). -/
def auxOperand (s : State) (a : PinId) : PinId :=
  if a ≠ noPin ∧ pinValid s a = true then a else noPin

end Sys2Proof.Machine
end

