-- ==== Sys2Proof/Machine/Ops.lean ====
section
/-! DEFINITION. The named operations: the pin table in canonical form, the trace, the ports, the primitives of the PIN, ENG
and CAP ports (spec/20_memory.md R53 to R68), and the error outcome with its rollback (spec/60_exceptions.md R202), which
stands for taking an exception; there is no return from one (R204). -/

namespace Sys2Proof.Machine

/-- Append an event to the trace (R40). -/
def State.emit (s : State) (e : Event) : State := { s with trace := s.trace ++ [e] }

/-- Replace one pin's row. -/
def State.writePin (s : State) (p : PinId) (v : Pin) : State := { s with pins := Memory.write s.pins p.toNat v }

/-- A port by its id. -/
def State.port (s : State) : PortId → PortState
  | .cc => s.cc
  | .bt => s.bt
  | .pm => s.pm

/-- Replace one port. -/
def State.setPort (s : State) (p : PortId) (v : PortState) : State :=
  match p with
  | .cc => { s with cc := v }
  | .bt => { s with bt := v }
  | .pm => { s with pm := v }

/-- `respond(port, status, value)`: the response word goes out on the port, the event is appended, the port is idle
(R93). -/
def respond (p : PortId) (st : Status) (v : Value) (s : State) : State :=
  (s.setPort p ⟨none, some (responseWord st v)⟩).emit (.resp p st v)

/-- `PinAcquire(p)`: granted exactly if the pin is free (R54). -/
def pinAcquire (p : PinId) (s : State) : Bool × State :=
  if (s.pin p).owner = .free then (true, (s.writePin p { s.pin p with owner := .self }).emit (.acq p true))
  else (false, s.emit (.acq p false))

/-- `PinRelease(p)`: direction and level stay as they are (R55). -/
def pinRelease (p : PinId) (s : State) : State := (s.writePin p { s.pin p with owner := .free }).emit (.rel p)

/-- `PinDirIn(p)`: the level latch is unchanged (R56). -/
def pinDirIn (p : PinId) (s : State) : State := (s.writePin p { s.pin p with dir := .input }).emit (.dirIn p)

/-- `PinDirOut(p, v)`: direction and level as one action (R57). -/
def pinDirOut (p : PinId) (v : Bit) (s : State) : State :=
  (s.writePin p { s.pin p with dir := .output, out := v }).emit (.dirOut p v)

/-- `PinSet(p, v)`: the direction is unchanged (R58). -/
def pinSet (p : PinId) (v : Bit) (s : State) : State := (s.writePin p { s.pin p with out := v }).emit (.set p v)

/-- `PinGet(p)`: the level of the line, a free value where the line model leaves it open (R59, R64). -/
def pinGet (p : PinId) (s : State) : Bit × State :=
  match lineLevel s p with
  | some v => (v, s.emit (.get p v))
  | none => (Config.lineDraw s.draws, { s with draws := s.draws + 1 }.emit (.get p (Config.lineDraw s.draws)))

/-- The engine's next answer: the next one State lists, a free value where it lists none (R66). -/
def nextAnswer (s : State) : EngAnswer × State :=
  match s.answers with
  | a :: rest => (a, { s with answers := rest })
  | [] => (Config.engDraw s.draws, { s with draws := s.draws + 1 })

/-- `EngRegister(desc)` (R66). -/
def engRegister (desc : BitVec 3) (s : State) : EngAnswer × State :=
  ((nextAnswer s).1, (nextAnswer s).2.emit (.reg desc (nextAnswer s).1))

/-- `EngDeregister(HANDLE)` (R67). With no handle held there is nothing to withdraw (notes/assumptions/11). -/
def engDeregister (s : State) : State :=
  match s.handle with
  | some h => s.emit (.dereg h)
  | none => s

/-- `CapSet(v)`: `PWR <- v` (R68). -/
def capSet (v : Bit) (s : State) : State := { s with pwr := v }.emit (.cap v)

/-- Release the pins a command has acquired, the last acquired first (R202 (1), R203). `held` lists them in that order. -/
def rollback (held : List PinId) (s : State) : State := held.foldl (fun t p => pinRelease p t) s

/-- THE ERROR OUTCOME, in place of taking an exception: the pins acquired by this command go back, no register is
written, and the kind is what the caller reports (R202, R203). -/
def failWith (kind : Status) (held : List PinId) (s : State) : Status × State := (kind, rollback held s)

/-- Answer with the error kind; the value field is 0 (R93, R197). -/
def respondError (p : PortId) (kind : Status) (s : State) : State := respond p kind 0 s

end Sys2Proof.Machine
end

