-- ==== Sys2Proof/Machine/BitTransfer.lean ====
section
/-! DEFINITION. The Bit Transfer Interface: READ_BIT, WRITE_BIT, SET_PULLUP and the timer step PU_EXPIRE
(spec/40_bit_transfer.md). -/

namespace Sys2Proof.Machine

/-- READ_BIT (R120, R126). -/
def execReadBit (s : State) : Host.Outcome State Fault Refusal :=
  if s.main = noPin then .next (respond .bt .ok 0 s)
  else .next (respond .bt .ok (levelValue (pinGet s.main s).1) (pinGet s.main s).2)

/-- The installed write strategy applied to the main pin (R34, R121). -/
def writeMain (v : Bit) (s : State) : State :=
  match s.strat with
  | .wrVal => pinSet s.main v s
  | .wrDir => if v = 1 then pinDirIn s.main s else pinDirOut s.main 0 s

/-- WRITE_BIT (R121, R126). -/
def execWriteBit (v : Bit) (s : State) : Host.Outcome State Fault Refusal :=
  if s.main = noPin then .next (respond .bt .ok 0 s)
  else .next (respond .bt .ok 0 (writeMain v s))

/-- The start of the hold: drive the main pin high, wait for PEND, no response yet (R124). -/
def startHold (s : State) : State :=
  { (pinDirOut s.main 1 s).emit (.wait s.pend) with seq := .puHold, elapsed := 0 }

/-- SET_PULLUP (R122 to R124, R126, R127). -/
def execSetPullup (d : Duration) (s : State) : Host.Outcome State Fault Refusal :=
  if s.main = noPin then .next (respond .bt .ok 0 s)
  else if s.pucap = false then .next (respond .bt .ok 0 s)
  else if d ≠ 0 then .next (respond .bt .ok 0 { s with pend := d })
  else if s.pend = 0 then .next (respond .bt .ok 0 s)
  else .next (startHold s)

/-- PU_EXPIRE may be taken: a hold, and at least PEND TICKs since it began (R125, R261). -/
def State.expireEnabled (s : State) : Bool := s.holding && decide (s.pend.toNat ≤ s.elapsed)

/-- The end of the hold: release the pin to input, clear the pending duration, answer the SET_PULLUP (R125). -/
def endHold (s : State) : State :=
  respond .bt .ok 0 { pinDirIn s.main s with pend := 0, seq := .idle, elapsed := 0 }

/-- PU_EXPIRE: taken if it may be, otherwise nothing happens (R125). -/
def puExpire (s : State) : State := if s.expireEnabled then endHold s else s

/-- One TICK passes; only a hold counts it (R212, R261). -/
def tick (s : State) : State := if s.holding then { s with elapsed := s.elapsed + 1 } else s

end Sys2Proof.Machine
end

