-- ==== Sys2Proof/Machine/Lifecycle.lean ====
section
/-! DEFINITION. The Lifecycle Controller: HW_INIT, HW_EXIT and TEARDOWN (spec/41_lifecycle.md). Each is performed inside its
caller's transition (R74). -/

namespace Sys2Proof.Machine

/-- HW_INIT step 6: the capability first, then the aux pin (R146). -/
def hwInitPower (s : State) : State :=
  let t := if s.cfgCap then capSet 1 s else s
  if t.aux ≠ noPin then pinSet t.aux 1 t else t

/-- The binding record is written in one action (R145). -/
def commitBinding (p x : PinId) (m : Mode) (h : Handle) (s : State) : State :=
  { s with mode := m, handle := some h, main := p, aux := x }

/-- The pins HW_INIT holds after step 3, the last acquired first (R145, R203). -/
def acquiredPins (p x : PinId) : List PinId := if x ≠ noPin then [x, p] else [p]

/-- HW_INIT step 4: the main pin's idle state (R144). -/
def configureMain (p : PinId) (m : Mode) (s : State) : State :=
  match m with
  | .drv => pinDirOut p 1 s
  | .od => pinDirIn p s

/-- HW_INIT steps 5 and 6: register, unwind if the engine refuses, otherwise commit and power up (R145, R146). -/
def hwInitRegister (p x : PinId) (m : Mode) (s : State) : Status × State :=
  let r := engRegister (descriptorOf m) s
  match r.1 with
  | .error => failWith .registrationFailed (acquiredPins p x) r.2
  | .ok h => (.ok, hwInitPower (commitBinding p x m h r.2))

/-- HW_INIT steps 3 to 6, with the main pin acquired; `x` is the aux operand as it counts (R143, R144). -/
def hwInitAux (p x : PinId) (m : Mode) (s : State) : Status × State :=
  if x ≠ noPin then
    let r := pinAcquire x s
    if r.1 then hwInitRegister p x m (configureMain p m (pinDirOut x 0 r.2))
    else failWith .resourceUnavailable [p] r.2
  else hwInitRegister p x m (configureMain p m s)

/-- HW_INIT(p, a, m) (R140 to R146). The tests stand in the order of R200. -/
def hwInit (p a : PinId) (m : Mode) (s : State) : Status × State :=
  if s.main ≠ noPin then failWith .alreadyBound [] s
  else if pinValid s p = false then failWith .invalidPin [] s
  else
    let r := pinAcquire p s
    if r.1 then hwInitAux p (auxOperand s a) m r.2
    else failWith .resourceUnavailable [] r.2

/-- HW_EXIT step 1: cut pull-up power, the capability first, then the aux pin (R147, R148). -/
def hwExitPower (s : State) : State :=
  let t := if s.cfgCap then capSet 0 s else s
  if t.aux ≠ noPin then pinSet t.aux 0 t else t

/-- The binding record is cleared (R147). -/
def clearBinding (s : State) : State := { s with handle := none, main := noPin, aux := noPin }

/-- HW_EXIT step 3: the pins go back, main before aux; MAIN and AUX are cleared already (R147, R148). -/
def releaseBinding (p x : PinId) (s : State) : State :=
  if x ≠ noPin then pinRelease x (pinRelease p s) else pinRelease p s

/-- HW_EXIT's three steps (R147). -/
def hwExitSteps (s : State) : State := releaseBinding s.main s.aux (clearBinding (engDeregister (hwExitPower s)))

/-- HW_EXIT under its precondition (R147); called unbound it has no meaning (R149). -/
def hwExit (s : State) : Host.Outcome State Fault Refusal :=
  if s.main = noPin then .refused .hwExitUnbound
  else if s.holding then .refused .hwExitHolding
  else .next (hwExitSteps s)

/-- Go on after a procedure: its stop, if it stops, is the caller's. -/
def andThen (o : Host.Outcome State Fault Refusal) (f : State → State) : Host.Outcome State Fault Refusal :=
  match o with
  | .next t => .next (f t)
  | .fault r => .fault r
  | .refused r => .refused r

/-- The TEARDOWN signal has been served. -/
def clearTeardown (s : State) : State := { s with teardown := false }

/-- SEQR serves the TEARDOWN signal, if there is one: held during a hold, HW_EXIT if bound, nothing if unbound, and no
response (R150, R205). -/
def serveTeardown (s : State) : Host.Outcome State Fault Refusal :=
  if s.teardown = false then .next s
  else if s.main = noPin then .next (clearTeardown s)
  else if s.holding then .next s
  else andThen (hwExit s) clearTeardown

end Sys2Proof.Machine
end

