-- ==== Sys2Proof/Machine/ControlChannel.lean ====
section
/-! DEFINITION. The Control Channel: BIND, UNBIND, QUERYPIN (spec/42_control_channel.md). -/

namespace Sys2Proof.Machine

/-- BIND: aux pin and mode come from the straps (R160). -/
def execBind (pin : PinId) (s : State) : Host.Outcome State Fault Refusal :=
  .next (respond .cc (hwInit pin s.cfgAuxPin s.cfgMode s).1 0 (hwInit pin s.cfgAuxPin s.cfgMode s).2)

/-- UNBIND is held: bound, in a hold (R161, R205). -/
def State.unbindHeld (s : State) : Bool := s.bound && s.holding

/-- UNBIND: during a hold it is not served and stays outstanding (R161, R205). -/
def execUnbind (s : State) : Host.Outcome State Fault Refusal :=
  if s.main = noPin then .next (respondError .cc .notBound s)
  else if s.unbindHeld then .next s
  else andThen (hwExit s) (respond .cc .ok 0)

/-- QUERYPIN (R162). -/
def execQuerypin (s : State) : Host.Outcome State Fault Refusal := .next (respond .cc .ok s.main s)

end Sys2Proof.Machine
end

