-- ==== Sys2Proof/Machine/PowerHooks.lean ====
section
/-! DEFINITION. The Power Hooks: SUSPEND, RESUME (spec/43_power_hooks.md). -/

namespace Sys2Proof.Machine

/-- A hook's action: on the capability only, and only while bound (R180 to R183). -/
def hookCap (v : Bit) (s : State) : State := if s.cfgCap = true ∧ s.main ≠ noPin then capSet v s else s

/-- SUSPEND (R180). -/
def execSuspend (s : State) : Host.Outcome State Fault Refusal := .next (respond .pm .ok 0 (hookCap 0 s))

/-- RESUME (R181). -/
def execResume (s : State) : Host.Outcome State Fault Refusal := .next (respond .pm .ok 0 (hookCap 1 s))

end Sys2Proof.Machine
end

