-- ==== Sys2Proof/Machine/Dispatch.lean ====
section
/-! DEFINITION. Which meaning runs for which command. -/

namespace Sys2Proof.Machine

def exec (i : Instr) (s : State) : Host.Outcome State Fault Refusal :=
  match i with
  | .bind pin => Sys2Proof.Machine.execBind pin s
  | .unbind => Sys2Proof.Machine.execUnbind s
  | .querypin => Sys2Proof.Machine.execQuerypin s
  | .readBit => Sys2Proof.Machine.execReadBit s
  | .writeBit v => Sys2Proof.Machine.execWriteBit v s
  | .setPullup d => Sys2Proof.Machine.execSetPullup d s
  | .suspend => Sys2Proof.Machine.execSuspend s
  | .resume => Sys2Proof.Machine.execResume s

end Sys2Proof.Machine
end

