-- ==== Sys2Proof/Machine/Platform.lean ====
section
/-! DEFINITION. The platform and the environment: RESET and STARTUP (spec/70_reset_and_hazards.md R230 to R234), and the moves
of ENV on the pin table (spec/20_memory.md R60, R61). -/

namespace Sys2Proof.Machine

/-- STARTUP: the static binding through the same HW_INIT, its outcome in BOOT (R28, R233). -/
def startup (s : State) : State :=
  if s.cfgMainPin = noPin then { s with boot := Status.ok.code }
  else { (hwInit s.cfgMainPin s.cfgAuxPin s.cfgMode s).2 with
         boot := (hwInit s.cfgMainPin s.cfgAuxPin s.cfgMode s).1.code }

/-- RESET up to STARTUP: every register at its reset value, requests dropped without a response, straps latched; the pin
table is not the block's to reset, and what the surroundings will do is not either (R41, R230). -/
def resetRegisters (d : Descriptor) (s : State) : State :=
  { State.powerOn s.board d s.pins s.answers with agenda := s.agenda, draws := s.draws }

/-- RESET (R230). -/
def performReset (d : Descriptor) (s : State) : State := startup (resetRegisters d s)

/-- The machine after the first RESET of a board (R233, R234), for statements about every board. -/
def bootState (b : Board) (d : Descriptor) (pins : Memory) (answers : List EngAnswer) : State :=
  startup (State.powerOn b d pins answers)

/-- ENV writes a pin's row if it may; a move it may not make fails and changes nothing (R31, R60, R73; notes/assumptions/15). -/
def envWrite (may : Bool) (p : PinId) (r : Pin) (s : State) : State := if may then s.writePin p r else s

/-- The pin exists and another user of the board holds it (R30). -/
def heldByEnv (s : State) (p : PinId) : Bool := pinValid s p && (s.pin p).owner == .other

/-- ENV tries to acquire a pin: it takes a FREE one (R60), and an acquire of a held pin fails, for ENV as for the block (R73). -/
def envAcquire (p : PinId) (s : State) : State :=
  envWrite (pinValid s p && (s.pin p).owner == .free) p { s.pin p with owner := .other } s

/-- ENV releases a pin it holds (R60); only the holder releases (R31). -/
def envRelease (p : PinId) (s : State) : State := envWrite (heldByEnv s p) p { s.pin p with owner := .free } s

/-- ENV changes direction and level of a pin it holds (R60), and of no other. -/
def envDrive (p : PinId) (d : Dir) (v : Bit) (s : State) : State :=
  envWrite (heldByEnv s p) p { s.pin p with dir := d, out := v } s

/-- A device starts or stops pulling a line low, any line at any time (R61). -/
def envLine (p : PinId) (low : Bool) (s : State) : State :=
  envWrite (pinValid s p) p { s.pin p with extLow := low } s

end Sys2Proof.Machine
end

