-- ==== Sys2Proof/Machine/Sequencer.lean ====
section
/-! DEFINITION. The sequencer: issuing and serving requests, arbitration, and what each move of an agent does
(spec/20_memory.md R74, R75, R82; spec/10_state.md R37). -/

namespace Sys2Proof.Machine

/-- A requester issues a word on an idle port (R37, R248). -/
def issue (p : PortId) (w : Word) (s : State) : Host.Outcome State Fault Refusal :=
  match (s.port p).req with
  | none => .next (s.setPort p ⟨some w, none⟩)
  | some _ => .refused .portBusy

/-- The port's outstanding request is the fired SET_PULLUP whose hold is running: it is in service already (R82, R124). -/
def State.portInHold (s : State) (p : PortId) : Bool := p == .bt && s.holding

/-- SEQR serves a port: an illegal word is answered IllegalCommand in any state (R100), a command is performed (R74); with
nothing outstanding, nothing happens. -/
def serve (p : PortId) (s : State) : Host.Outcome State Fault Refusal :=
  match (s.port p).req with
  | none => .next s
  | some w =>
    match decode p w with
    | .error _ => .next (respondError p .illegalCommand s)
    | .ok i => if s.portInHold p then .next s else exec i s

/-- What each move does. -/
def perform (m : Move) (s : State) : Host.Outcome State Fault Refusal :=
  match m with
  | .issue p w => issue p w s
  | .serve p => serve p s
  | .serveTeardown => serveTeardown s
  | .tick => .next (tick s)
  | .puExpire => .next (puExpire s)
  | .teardown => .next { s with teardown := true }
  | .reset d => .next (performReset d s)
  | .envAcquire p => .next (envAcquire p s)
  | .envRelease p => .next (envRelease p s)
  | .envDrive p d v => .next (envDrive p d v s)
  | .envLine p low => .next (envLine p low s)

/-- The Control Channel's outstanding request can be served now: anything but a held UNBIND (R75, R82, R205). -/
def State.ccReady (s : State) : Bool :=
  match s.cc.req with
  | none => false
  | some w => !(s.unbindHeld && decode .cc w matches .ok .unbind)

/-- A move under a condition. -/
def moveIf (c : Bool) (m : Move) : List Move := if c then [m] else []

/-- The moves the block and its timer can make by themselves (R75, R125): serve what is outstanding and not held, and in a hold
let a TICK pass or, when enough have passed, end it. -/
def State.ready (s : State) : List Move :=
  moveIf s.ccReady (.serve .cc) ++
  (moveIf (s.bt.req.isSome && !s.holding) (.serve .bt) ++
  (moveIf s.pm.req.isSome (.serve .pm) ++
  (moveIf (s.teardown && !s.holding) .serveTeardown ++
  moveIf s.holding (if s.expireEnabled then .puExpire else .tick))))

/-- The block runs by itself: whatever is outstanding and not held is served, in an order no rule fixes (R75); the hold
runs out (R125); with nothing to do it rests. -/
def freeRun (s : State) : Host.Outcome State Fault Refusal :=
  match s.ready with
  | [] => .next s
  | [m] => perform m s
  | m :: ms => perform ((m :: ms).getD (Config.arbiter s.draws % (m :: ms).length) m) { s with draws := s.draws + 1 }

/-- The move that comes next, if the agenda says so, else the block runs by itself. -/
def nextMove (s : State) : Host.Outcome State Fault Refusal :=
  match s.agenda with
  | [] => freeRun s
  | m :: rest => perform m { s with agenda := rest }

/-- The port a word is sent to when only its bits are given: its class's, or CC for a class that names none. -/
def portOfWord (w : Word) : PortId := (portOfCls (clsField w)).getD .cc

/-- A word outstanding on its port, to be served next. -/
def State.withRequest (s : State) (w : Word) : State :=
  { s.setPort (portOfWord w) ⟨some w, none⟩ with agenda := .serve (portOfWord w) :: s.agenda }

end Sys2Proof.Machine
end

