-- ==== Sys2Proof/Machine/Step.lean ====
section
/-! DEFINITION. One step of the machine, and how the host places one request (notes/assumptions/8). -/

namespace Sys2Proof.Machine

/-- One step: one move of one agent (R12, R74). -/
def step (s : State) : Host.Outcome State Fault Refusal := nextMove s

/-- `s` with the word as the outstanding request of its port and its service as the next move. -/
def State.withFetchWord (s : State) (nbits w : Nat) : State := s.withRequest (tableWord nbits w)

end Sys2Proof.Machine
end

