-- ==== Sys2Proof/Safety.lean ====
section
/-! DEFINITION. What claims call a sound state: the invariants of spec/10_state.md (R21, R22, R26 to R28, R31, R33, R35) and
the end of a run (spec/70_reset_and_hazards.md R252). -/

namespace Sys2Proof.Machine

/-- The invariants the spec states between commands, clause by clause. -/
structure State.Inv (s : State) : Prop where
  /-- The pin table is in its canonical form. -/
  table : Memory.wf s.pins = true
  /-- R35 (1). -/
  unbound : s.main = noPin → s.aux = noPin ∧ s.handle = none ∧ s.seq = .idle
  /-- R35 (2). -/
  powerOff : s.main = noPin → s.pwr = 0
  /-- R26: without the capability PWR stays at its reset value. -/
  noCap : s.cfgCap = false → s.pwr = 0
  /-- R35 (3): `MODE = CFG_MODE` always. -/
  modeStrap : s.mode = s.cfgMode
  /-- R35 (3): in driven mode nothing is ever armed. -/
  drvUnarmed : s.cfgMode = .drv → s.pend = 0
  /-- R33: bound exactly while live; with `unbound` this is BOUND = LIVE. -/
  live : s.main ≠ noPin → s.handle ≠ none
  /-- R21, R35 (4): MAIN is a legal pin the block holds. -/
  mainHeld : s.main ≠ noPin → pinValid s s.main = true ∧ (s.pin s.main).owner = .self
  /-- R22, R35 (4), (6): AUX is another legal pin the block holds, and an output. -/
  auxHeld : s.aux ≠ noPin → s.main ≠ noPin ∧ s.aux ≠ s.main ∧ pinValid s s.aux = true ∧
    (s.pin s.aux).owner = .self ∧ (s.pin s.aux).dir = .output
  /-- R22: a binding's AUX is the strap, if it names a legal pin (R143). -/
  auxStrap : s.main ≠ noPin → s.aux = auxOperand s s.cfgAuxPin
  /-- R35 (5). -/
  drvOutput : s.main ≠ noPin → s.mode = .drv → (s.pin s.main).dir = .output
  /-- R35 (7): outside a hold the open-drain main pin is never output-high. -/
  odNeverHigh : s.main ≠ noPin → s.mode = .od → s.seq = .idle →
    (s.pin s.main).dir = .input ∨ ((s.pin s.main).dir = .output ∧ (s.pin s.main).out = 0)
  /-- R27: what a hold implies. -/
  hold : s.seq = .puHold → s.main ≠ noPin ∧ s.mode = .od ∧ s.pend ≠ 0 ∧ (s.pin s.main).dir = .output ∧
    (s.pin s.main).out = 1 ∧ s.bt.req = some (encode (.setPullup 0))
  /-- R231: the timer is idle outside a hold. -/
  timerIdle : s.seq = .idle → s.elapsed = 0
  /-- R28, R233: BOOT is OK, InvalidPin, ResourceUnavailable or RegistrationFailed. -/
  bootCode : s.boot = 0 ∨ s.boot = 1 ∨ s.boot = 4 ∨ s.boot = 5

/-- R31, R35 (4): the block holds no pin but MAIN and AUX. A RESET while bound breaks it (R230: the pins leak). -/
def State.ownsOnlyBound (s : State) : Prop :=
  ∀ p : PinId, (s.pin p).owner = .self → p ≠ noPin ∧ (p = s.main ∨ p = s.aux)

/-- The end of a run: no request outstanding on any port and SEQ = IDLE (R252), and no TEARDOWN signal to serve. -/
def State.atRest (s : State) : Bool :=
  s.cc.req.isNone && s.bt.req.isNone && s.pm.req.isNone && !s.teardown && s.seq == .idle

/-- One, if there is something. -/
def countOne (b : Bool) : Nat := if b then 1 else 0

/-- How many steps the block and its timer need to come to rest by themselves: one for each outstanding request and signal,
and for a hold, running or still to start, its remaining TICKs. -/
def State.pendingWork (s : State) : Nat :=
  countOne s.cc.req.isSome + countOne s.pm.req.isSome + countOne s.teardown +
    (if s.holding then s.pend.toNat - s.elapsed + 1 else if s.bt.req.isSome then s.pend.toNat + 2 else 0)

/-- The move that comes next is not a RESET. -/
def State.nextIsReset (s : State) : Bool :=
  match s.agenda with
  | .reset _ :: _ => true
  | _ => false

/-! What a step keeps, in the groups the spec's rules on who writes what use (R39, R211). -/

/-- MAIN, AUX, MODE and HANDLE are kept. -/
def keepsBinding (s t : State) : Prop := t.main = s.main ∧ t.aux = s.aux ∧ t.mode = s.mode ∧ t.handle = s.handle

/-- PEND, SEQ and the timer are kept. -/
def keepsHold (s t : State) : Prop := t.pend = s.pend ∧ t.seq = s.seq ∧ t.elapsed = s.elapsed

/-- BOOT, the straps and the board are kept. -/
def keepsStraps (s t : State) : Prop :=
  t.boot = s.boot ∧ t.cfgMainPin = s.cfgMainPin ∧ t.cfgAuxPin = s.cfgAuxPin ∧ t.cfgMode = s.cfgMode ∧
    t.cfgCap = s.cfgCap ∧ t.board = s.board

/-- Every pin but these has the row it had. -/
def keepsPinsBut (ps : List PinId) (s t : State) : Prop := ∀ q : PinId, q ∉ ps → t.pin q = s.pin q

/-- Every port but this one is as it was, and so is the TEARDOWN signal. -/
def keepsPortsBut (p : PortId) (s t : State) : Prop :=
  (∀ q : PortId, q ≠ p → t.port q = s.port q) ∧ t.teardown = s.teardown

/-- What the surroundings will do is as it was. -/
def keepsInputs (s t : State) : Prop := t.agenda = s.agenda ∧ t.answers = s.answers ∧ t.draws = s.draws

/-- These events, in this order, are what the trace gained (R40). -/
def emits (s t : State) (es : List Event) : Prop := t.trace = s.trace ++ es

/-- These events under a condition. -/
def eventsIf (c : Bool) (es : List Event) : List Event := if c then es else []

/-- The port is idle and shows this response (R93). -/
def answered (p : PortId) (st : Status) (v : Value) (t : State) : Prop :=
  t.port p = ⟨none, some (responseWord st v)⟩

/-- The answer is all that happens: nothing but the port and the trace changes. -/
def onlyAnswers (p : PortId) (st : Status) (v : Value) (s t : State) : Prop :=
  answered p st v t ∧ emits s t [.resp p st v] ∧ keepsInputs s t ∧ keepsBinding s t ∧ keepsHold s t ∧ t.pwr = s.pwr ∧
    keepsStraps s t ∧ keepsPinsBut [] s t ∧ keepsPortsBut p s t

end Sys2Proof.Machine
end

