-- ==== Sys2Proof/Certificates/Slice0/Obligations.lean ====
section
/-! DEFINITION. The statements for the provers. Each docstring names the rule of spec/ it formalises; a statement about a free
value holds for every value of it. Where a statement says that a command is `answered`, it says that the port is idle and that its
latch of the last response word, the model's own (notes/assumptions/9), holds that response. -/

open Sys2Proof Sys2Proof.Machine

/-! ### Encoding -/

/-- R91, R92, R95 to R99: the word of every command, with every operand, decodes to that command on the port of its class
and to no command on any other port. -/
def Obligations.DecodeEncodeRoundTrip : Prop :=
  ∀ (i : Instr) (p : PortId), decode p (encode i) = if p = i.port then .ok i else .error .wrongPort

/-- R91 to R100: a word that decodes to a command is that command's word, on that command's port. -/
def Obligations.EveryLegalWordIsAnEncoding : Prop :=
  ∀ (p : PortId) (w : Word) (i : Instr), decode p w = .ok i → encode i = w ∧ i.port = p

/-- R95: a word decodes to a command exactly if it selects a row of the opcode map, the row it selects is that command's,
and no word selects two rows. -/
def Obligations.DecodingFollowsTheOpcodeMap : Prop :=
  (∀ (p : PortId) (w : Word), (∃ i, decode p w = .ok i) ↔ ∃ r ∈ opcodeMap, r.selects p w = true) ∧
  (∀ (p : PortId) (w : Word) (i : Instr), decode p w = .ok i → i.row ∈ opcodeMap ∧ i.row.selects p w = true) ∧
  opcodeMap.Pairwise (fun a b => ∀ (p : PortId) (w : Word), ¬(a.selects p w = true ∧ b.selects p w = true))

/-- Words of spec/95_test_vectors.md section 2.1, legal and illegal, one or more of every command. -/
def Obligations.SpecWordsDecode : Prop :=
  decode .cc 0x10000011#32 = .ok (.bind 17) ∧ decode .cc 0x11000000#32 = .ok .unbind ∧
  decode .cc 0x12000000#32 = .ok .querypin ∧ decode .bt 0x20000000#32 = .ok .readBit ∧
  decode .bt 0x21000001#32 = .ok (.writeBit 1) ∧ decode .bt 0x220002EE#32 = .ok (.setPullup 750) ∧
  decode .pm 0x30000000#32 = .ok .suspend ∧ decode .pm 0x31000000#32 = .ok .resume ∧
  decode .cc 0x11000001#32 = .error .operandNotZero ∧ decode .cc 0x13000000#32 = .error .unknownFunction ∧
  decode .cc 0x20000000#32 = .error .wrongPort ∧ decode .bt 0x21000003#32 = .error .operandNotZero ∧
  decode .pm 0xFFFFFFFF#32 = .error .unknownClass

/-- R94: the status codes and the response word of each, and that codes 6 to 14 are never produced; and the layout of R93:
bits 31:28 of the response word are the status code, bits 27:24 are 0, bits 23:0 are the value. -/
def Obligations.ResponseWordLayout : Prop :=
  (∀ (st : Status) (v : Value), (responseWord st v).extractLsb' 28 4 = st.code ∧
    (responseWord st v).extractLsb' 24 4 = 0 ∧ (responseWord st v).extractLsb' 0 24 = v) ∧
  (responseWord .ok 0xFFFFFF = 0x00FFFFFF#32 ∧ responseWord .invalidPin 0 = 0x10000000#32 ∧
    responseWord .alreadyBound 0 = 0x20000000#32 ∧ responseWord .notBound 0 = 0x30000000#32 ∧
    responseWord .resourceUnavailable 0 = 0x40000000#32 ∧ responseWord .registrationFailed 0 = 0x50000000#32 ∧
    responseWord .illegalCommand 0 = 0xF0000000#32) ∧
  ∀ st : Status, st.code ≤ 5 ∨ st.code = 15

/-! ### The step -/

/-- R74: when the next move serves a port whose outstanding word decodes to a command, the step is that command's meaning, with
the move taken off the agenda; so is the step of a state the host places a word in (`withFetchWord`). The one port that is
not served is BT in a hold (R82: its request is in service already); the step then does nothing. The agenda is
notes/assumptions/1, `withFetchWord` is notes/assumptions/8. -/
def Obligations.StepRunsTheDecodedCommand : Prop :=
  (∀ (s : State) (p : PortId) (w : Word) (i : Instr) (rest : List Move),
    s.agenda = .serve p :: rest → (s.port p).req = some w → decode p w = .ok i →
    step s = if p = .bt ∧ s.seq = .puHold then .next { s with agenda := rest } else exec i { s with agenda := rest }) ∧
  (∀ (s : State) (w : Word) (i : Instr), s.seq = .idle → decode i.port w = .ok i →
    step (s.withFetchWord 32 w.toNat) = exec i (s.setPort i.port ⟨some w, none⟩))

/-- R100: a word that selects no row of the opcode map is answered IllegalCommand, 0xF0000000, on every port and in every
state, and nothing else changes. -/
def Obligations.IllegalWordIsAnswered : Prop :=
  ∀ (s : State) (p : PortId) (w : Word) (rest : List Move),
    s.agenda = .serve p :: rest → (s.port p).req = some w → (∀ r ∈ opcodeMap, r.selects p w = false) →
    ∃ t, step s = .next t ∧ t.port p = ⟨none, some 0xF0000000#32⟩ ∧
      onlyAnswers p .illegalCommand 0 { s with agenda := rest } t

/-- R37, R248: a request issued on an idle port is outstanding and nothing else of the block changes; that the issue also clears
the port's latch of the last response is the model's choice (notes/assumptions/9). One issued on a port with an outstanding
request has no meaning and is refused (U11, notes/assumptions/15). -/
def Obligations.OneRequestPerPort : Prop :=
  ∀ (s : State) (p : PortId) (w : Word),
    ((s.port p).req = none → ∃ t, perform (.issue p w) s = .next t ∧ t.port p = ⟨some w, none⟩ ∧
      t.trace = s.trace ∧ keepsInputs s t ∧ keepsBinding s t ∧ keepsHold s t ∧ t.pwr = s.pwr ∧ keepsStraps s t ∧
      keepsPinsBut [] s t ∧ keepsPortsBut p s t) ∧
    ((s.port p).req ≠ none → perform (.issue p w) s = .refused .portBusy)

/-! ### PIN, ENG and CAP primitives, and the level of a line -/

/-- R54: a free pin is acquired, any other is not and keeps its row; the event says which. -/
def Obligations.AcquireTakesOnlyAFreePin : Prop :=
  ∀ (s : State) (p : PinId),
    ((s.pin p).owner = .free → (pinAcquire p s).1 = true ∧ (pinAcquire p s).2.pin p = { s.pin p with owner := .self } ∧
      keepsPinsBut [p] s (pinAcquire p s).2 ∧ emits s (pinAcquire p s).2 [.acq p true]) ∧
    ((s.pin p).owner ≠ .free → (pinAcquire p s).1 = false ∧ keepsPinsBut [] s (pinAcquire p s).2 ∧
      emits s (pinAcquire p s).2 [.acq p false])

/-- R55 to R58: what releasing, switching to input, switching to output and setting the level of a pin each leave in its
row, in every other row and in the trace. -/
def Obligations.PinPrimitivesWriteOneRow : Prop :=
  ∀ (s : State) (p : PinId) (v : Bit),
    ((pinRelease p s).pin p = { s.pin p with owner := .free } ∧ keepsPinsBut [p] s (pinRelease p s) ∧
      emits s (pinRelease p s) [.rel p]) ∧
    ((pinDirIn p s).pin p = { s.pin p with dir := .input } ∧ keepsPinsBut [p] s (pinDirIn p s) ∧
      emits s (pinDirIn p s) [.dirIn p]) ∧
    ((pinDirOut p v s).pin p = { s.pin p with dir := .output, out := v } ∧ keepsPinsBut [p] s (pinDirOut p v s) ∧
      emits s (pinDirOut p v s) [.dirOut p v]) ∧
    ((pinSet p v s).pin p = { s.pin p with out := v } ∧ keepsPinsBut [p] s (pinSet p v s) ∧
      emits s (pinSet p v s) [.set p v])

/-- R64: the level of a line, clause by clause, and where the clause says draw, what `PinGet` returns is the free value and
a later read takes a fresh one. -/
def Obligations.LineLevelIsTheSpecs : Prop :=
  ∀ (s : State) (p : PinId),
    ((s.pin p).dir = .output → (s.pin p).out = 0 → (pinGet p s).1 = 0) ∧
    ((s.pin p).dir = .output → (s.pin p).out = 1 → (s.pin p).extLow = false → (pinGet p s).1 = 1) ∧
    ((s.pin p).dir = .output → (s.pin p).out = 1 → (s.pin p).extLow = true → s.board.padOd = true →
      (pinGet p s).1 = 0) ∧
    ((s.pin p).dir = .output → (s.pin p).out = 1 → (s.pin p).extLow = true → s.board.padOd = false →
      (pinGet p s).1 = Config.lineDraw s.draws ∧ (pinGet p s).2.draws = s.draws + 1) ∧
    ((s.pin p).dir = .input → (s.pin p).extLow = true → (pinGet p s).1 = 0) ∧
    ((s.pin p).dir = .input → (s.pin p).extLow = false → pullupEff s p = true → (pinGet p s).1 = 1) ∧
    ((s.pin p).dir = .input → (s.pin p).extLow = false → pullupEff s p = false →
      (pinGet p s).1 = Config.lineDraw s.draws ∧ (pinGet p s).2.draws = s.draws + 1)

/-- R65: a pull-up holds the released main line high exactly if the board has one, the capability, if configured, is
powered, and the aux pin, if there is one, is driven high; no other pin has one. -/
def Obligations.PullupNeedsEverySwitch : Prop :=
  ∀ (s : State) (p : PinId), pullupEff s p = true ↔
    p = s.main ∧ s.board.pullupPresent = true ∧ (s.cfgCap = false ∨ s.pwr = 1) ∧
      (s.aux = noPin ∨ ((s.pin s.aux).dir = .output ∧ (s.pin s.aux).out = 1))

/-! ### Bit Transfer Interface -/

/-- R120: READ_BIT of an unbound block answers OK 0; of a bound block, the level of the main line; no register and no pin
changes. Where the level is not determined the answer is a free value, and the count of those advances (the model's choice,
notes/assumptions/4); the latch of the answer is notes/assumptions/9. -/
def Obligations.ReadBitAnswersTheLevel : Prop :=
  ∀ s : State,
    (s.main = noPin → ∃ t, exec .readBit s = .next t ∧ onlyAnswers .bt .ok 0 s t) ∧
    (s.main ≠ noPin → ∃ t v, exec .readBit s = .next t ∧ (lineLevel s s.main = some v ∨
        (lineLevel s s.main = none ∧ v = Config.lineDraw s.draws)) ∧
      answered .bt .ok (v.setWidth 24) t ∧ emits s t [.get s.main v, .resp .bt .ok (v.setWidth 24)] ∧
      t.agenda = s.agenda ∧ t.answers = s.answers ∧
      t.draws = (if lineLevel s s.main = none then s.draws + 1 else s.draws) ∧
      keepsBinding s t ∧ keepsHold s t ∧ t.pwr = s.pwr ∧ keepsStraps s t ∧ keepsPinsBut [] s t ∧ keepsPortsBut .bt s t)

/-- R121: WRITE_BIT of an unbound block only answers. Of a bound block: driven, the level is set, the direction kept;
open-drain, 1 releases the line, 0 drives it low. No register changes, no other pin. The latch of the answer is the model's choice,
notes/assumptions/9. -/
def Obligations.WriteBitFollowsTheMode : Prop :=
  ∀ (s : State) (v : Bit),
    (s.main = noPin → ∃ t, exec (.writeBit v) s = .next t ∧ onlyAnswers .bt .ok 0 s t) ∧
    (s.main ≠ noPin → ∃ t, exec (.writeBit v) s = .next t ∧ answered .bt .ok 0 t ∧
      (s.mode = .drv → t.pin s.main = { s.pin s.main with out := v } ∧
        emits s t [.set s.main v, .resp .bt .ok 0]) ∧
      (s.mode = .od → v = 1 → t.pin s.main = { s.pin s.main with dir := .input } ∧
        emits s t [.dirIn s.main, .resp .bt .ok 0]) ∧
      (s.mode = .od → v = 0 → t.pin s.main = { s.pin s.main with dir := .output, out := 0 } ∧
        emits s t [.dirOut s.main 0, .resp .bt .ok 0]) ∧
      keepsInputs s t ∧ keepsBinding s t ∧ keepsHold s t ∧ t.pwr = s.pwr ∧ keepsStraps s t ∧
      keepsPinsBut [s.main] s t ∧ keepsPortsBut .bt s t)

/-- R123: SET_PULLUP d, d != 0, bound, open-drain: PEND takes d whatever it was, no pin is touched, the answer is
immediate; suspended or not. -/
def Obligations.ArmStoresTheDuration : Prop :=
  ∀ (s : State) (d : Duration), s.main ≠ noPin → s.mode = .od → d ≠ 0 →
    ∃ t, exec (.setPullup d) s = .next t ∧ t.pend = d ∧ answered .bt .ok 0 t ∧ emits s t [.resp .bt .ok 0] ∧
      t.seq = s.seq ∧ t.elapsed = s.elapsed ∧ keepsInputs s t ∧ keepsBinding s t ∧ t.pwr = s.pwr ∧ keepsStraps s t ∧
      keepsPinsBut [] s t ∧ keepsPortsBut .bt s t

/-- R124: SET_PULLUP 0, bound, open-drain. With PEND = 0 it answers and does nothing else; with PEND != 0 it drives the main pin
high and starts the hold, PEND keeps its value and the request stays outstanding. -/
def Obligations.FireStartsTheHold : Prop :=
  ∀ s : State, s.main ≠ noPin → s.mode = .od →
    (s.pend = 0 → ∃ t, exec (.setPullup 0) s = .next t ∧ onlyAnswers .bt .ok 0 s t) ∧
    (s.pend ≠ 0 → ∃ t, exec (.setPullup 0) s = .next t ∧ t.seq = .puHold ∧ t.pend = s.pend ∧ t.elapsed = 0 ∧
      t.pin s.main = { s.pin s.main with dir := .output, out := 1 } ∧
      emits s t [.dirOut s.main 1, .wait s.pend] ∧ (∀ p, t.port p = s.port p) ∧ t.teardown = s.teardown ∧
      keepsInputs s t ∧ keepsBinding s t ∧ t.pwr = s.pwr ∧ keepsStraps s t ∧ keepsPinsBut [s.main] s t)

/-- R125, R231: PU_EXPIRE, taken in a hold once PEND TICKs have passed, releases the main pin to input, clears PEND, ends the hold
with the timer idle again and answers the SET_PULLUP, in that order; before that, and outside a hold, nothing happens. That
TICKs are counted is notes/assumptions/12, that the move changes nothing where it is not enabled is notes/assumptions/1. -/
def Obligations.ExpireEndsTheHold : Prop :=
  ∀ s : State,
    (s.seq = .puHold → s.pend.toNat ≤ s.elapsed → ∃ t, perform .puExpire s = .next t ∧ t.seq = .idle ∧ t.pend = 0 ∧
      t.elapsed = 0 ∧ t.pin s.main = { s.pin s.main with dir := .input } ∧ answered .bt .ok 0 t ∧
      emits s t [.dirIn s.main, .resp .bt .ok 0] ∧ keepsInputs s t ∧ keepsBinding s t ∧ t.pwr = s.pwr ∧
      keepsStraps s t ∧ keepsPinsBut [s.main] s t ∧ keepsPortsBut .bt s t) ∧
    (s.seq = .idle ∨ s.elapsed < s.pend.toNat → perform .puExpire s = .next s)

/-- R126: each bit-transfer command of an unbound block answers OK 0 and does nothing else. -/
def Obligations.UnboundTransfersAreNeutral : Prop :=
  ∀ (s : State) (i : Instr), i.port = .bt → s.main = noPin →
    ∃ t, exec i s = .next t ∧ onlyAnswers .bt .ok 0 s t

/-- R127: SET_PULLUP in driven mode, both forms, answers OK 0 and does nothing else. -/
def Obligations.DrivenModeHasNoPullup : Prop :=
  ∀ (s : State) (d : Duration), s.main ≠ noPin → s.mode = .drv →
    ∃ t, exec (.setPullup d) s = .next t ∧ onlyAnswers .bt .ok 0 s t

/-- R128: arm with d, which touches no pin, fire, let d TICKs pass, expire: the pin is held high and then released, the trace
shows exactly that, and a second fire does nothing. That TICKs are counted is notes/assumptions/12, that the move changes
nothing where it comes too early is notes/assumptions/1, the latch of the answers is notes/assumptions/9 (R122 to R125, R128). -/
def Obligations.StrongPullupTwoPhases : Prop :=
  ∀ (s : State) (d : Duration), s.main ≠ noPin → s.mode = .od → s.seq = .idle → d ≠ 0 →
    ∃ a b e f, exec (.setPullup d) s = .next a ∧ keepsPinsBut [] s a ∧ emits s a [.resp .bt .ok 0] ∧
      exec (.setPullup 0) a = .next b ∧
      (b.pin s.main).dir = .output ∧ (b.pin s.main).out = 1 ∧
      (∀ n < d.toNat, perform .puExpire (Nat.iterate tick n b) = .next (Nat.iterate tick n b)) ∧
      perform .puExpire (Nat.iterate tick d.toNat b) = .next e ∧ (e.pin s.main).dir = .input ∧ e.pend = 0 ∧
      emits s e [.resp .bt .ok 0, .dirOut s.main 1, .wait d, .dirIn s.main, .resp .bt .ok 0] ∧
      exec (.setPullup 0) e = .next f ∧ emits e f [.resp .bt .ok 0] ∧ f.seq = .idle ∧
      keepsPinsBut [] e f

/-- R130: a bit-transfer command never stops and answers, if it answers in this step, with status OK. -/
def Obligations.TransfersNeverReportAnError : Prop :=
  ∀ (s : State) (i : Instr), i.port = .bt →
    ∃ t, exec i s = .next t ∧ ∀ e ∈ t.trace.drop s.trace.length, ∀ p st v, e = .resp p st v → p = .bt ∧ st = .ok

/-- R129: WRITE_BIT and SET_PULLUP neither read nor write AUX, HANDLE or PWR: with other values in those registers they do the
same. (READ_BIT's level depends on AUX and PWR through R65.) -/
def Obligations.WritesIgnorePowerAndRegistration : Prop :=
  ∀ (s : State) (i : Instr) (b : Bit) (h : Option Handle) (a : PinId),
    ((∃ v, i = .writeBit v) ∨ ∃ d, i = .setPullup d) →
    ∃ t, exec i s = .next t ∧
      exec i { s with pwr := b, handle := h, aux := a } = .next { t with pwr := b, handle := h, aux := a }

/-- The property S6 of spec/95_test_vectors.md: in open-drain mode a 0 written reads back as 0, and a 1 written reads back
as 1 while a pull-up is effective and no device pulls low; the pin is never set output-high. -/
def Obligations.OpenDrainReadsBackWhatWasWritten : Prop :=
  ∀ (s : State) (v : Bit), s.main ≠ noPin → s.mode = .od →
    (v = 1 → pullupEff s s.main = true ∧ (s.pin s.main).extLow = false ∧ s.aux ≠ s.main) →
    ∃ t u, exec (.writeBit v) s = .next t ∧ exec .readBit t = .next u ∧ answered .bt .ok (v.setWidth 24) u ∧
      ¬((t.pin s.main).dir = .output ∧ (t.pin s.main).out = 1)

/-! ### Control Channel and Lifecycle Controller -/

/-- R192, R200: BIND of a bound block answers AlreadyBound whatever its operand, and leaves everything else as it was. -/
def Obligations.BindWhileBoundFails : Prop :=
  ∀ (s : State) (p : PinId), s.main ≠ noPin →
    ∃ t, exec (.bind p) s = .next t ∧ onlyAnswers .cc .alreadyBound 0 s t

/-- R191: BIND of an unbound block with a pin id out of range, NONE among them, answers InvalidPin and leaves everything
else as it was; an aux id out of range is no error (BindSucceeds). -/
def Obligations.BindOfNoPinFails : Prop :=
  ∀ (s : State) (p : PinId), s.main = noPin → (s.board.npins.toNat ≤ p.toNat ∨ p = noPin) →
    ∃ t, exec (.bind p) s = .next t ∧ onlyAnswers .cc .invalidPin 0 s t

/-- R142, R190: BIND whose main pin is not free answers ResourceUnavailable; the only other event is the failed
acquisition, and nothing else changes. -/
def Obligations.BindOfAHeldPinFails : Prop :=
  ∀ (s : State) (p : PinId), s.main = noPin → pinValid s p = true → (s.pin p).owner ≠ .free →
    ∃ t, exec (.bind p) s = .next t ∧ answered .cc .resourceUnavailable 0 t ∧
      emits s t [.acq p false, .resp .cc .resourceUnavailable 0] ∧
      keepsInputs s t ∧ keepsBinding s t ∧ keepsHold s t ∧ t.pwr = s.pwr ∧ keepsStraps s t ∧ keepsPinsBut [] s t ∧
      keepsPortsBut .cc s t

/-- R143: a supplied, valid aux pin that is not free, or is the main pin itself, makes BIND release the main pin and answer
ResourceUnavailable; every pin's row is what it was. -/
def Obligations.AuxFailureRollsBack : Prop :=
  ∀ (s : State) (p : PinId), s.main = noPin → pinValid s p = true → (s.pin p).owner = .free →
    s.cfgAuxPin ≠ noPin → pinValid s s.cfgAuxPin = true → (s.cfgAuxPin = p ∨ (s.pin s.cfgAuxPin).owner ≠ .free) →
    ∃ t, exec (.bind p) s = .next t ∧ answered .cc .resourceUnavailable 0 t ∧
      emits s t [.acq p true, .acq s.cfgAuxPin false, .rel p, .resp .cc .resourceUnavailable 0] ∧
      keepsInputs s t ∧ keepsBinding s t ∧ keepsHold s t ∧ t.pwr = s.pwr ∧ keepsStraps s t ∧ keepsPinsBut [] s t ∧
      keepsPortsBut .cc s t

/-- R140, R142 to R146, R160: BIND of a free, valid pin, with no aux pin or a free one, and an engine that answers ok(h): the
binding record is written, the pins are configured, pull-up power is on, and the trace has the six steps in order. That a free
pin is always acquired is the spec's decision D21, which the board could break (notes/assumptions/14); the list of the engine's
answers is notes/assumptions/5, the latch of the answer notes/assumptions/9: the model's choices. -/
def Obligations.BindSucceeds : Prop :=
  ∀ (s : State) (p x : PinId) (h : Handle) (more : List EngAnswer),
    s.main = noPin → pinValid s p = true → (s.pin p).owner = .free → s.answers = .ok h :: more →
    (x = if s.cfgAuxPin ≠ noPin ∧ pinValid s s.cfgAuxPin = true then s.cfgAuxPin else noPin) →
    (x ≠ noPin → x ≠ p ∧ (s.pin x).owner = .free) →
    ∃ t, exec (.bind p) s = .next t ∧ answered .cc .ok 0 t ∧
      t.main = p ∧ t.aux = x ∧ t.mode = s.cfgMode ∧ t.handle = some h ∧
      t.pwr = (if s.cfgCap = true then 1 else s.pwr) ∧
      (s.cfgMode = .drv → t.pin p = { s.pin p with owner := .self, dir := .output, out := 1 }) ∧
      (s.cfgMode = .od → t.pin p = { s.pin p with owner := .self, dir := .input }) ∧
      (x ≠ noPin → t.pin x = { s.pin x with owner := .self, dir := .output, out := 1 }) ∧
      emits s t ([.acq p true] ++ eventsIf (x ≠ noPin) [.acq x true, .dirOut x 0] ++
        eventsIf (s.cfgMode = .drv) [.dirOut p 1] ++ eventsIf (s.cfgMode = .od) [.dirIn p] ++
        eventsIf (s.cfgMode = .drv) [.reg 0b011 (.ok h)] ++ eventsIf (s.cfgMode = .od) [.reg 0b111 (.ok h)] ++
        eventsIf s.cfgCap [.cap 1] ++ eventsIf (x ≠ noPin) [.set x 1] ++ [.resp .cc .ok 0]) ∧
      t.answers = more ∧ t.agenda = s.agenda ∧ t.draws = s.draws ∧ keepsHold s t ∧ keepsStraps s t ∧
      keepsPinsBut (if x ≠ noPin then [p, x] else [p]) s t ∧ keepsPortsBut .cc s t

/-- R145: an engine that refuses the registration makes BIND release the pins, aux before main, and answer
RegistrationFailed; no register changes, and the released pins keep the direction and level they were given. -/
def Obligations.RegistrationFailureRollsBack : Prop :=
  ∀ (s : State) (p x : PinId) (more : List EngAnswer),
    s.main = noPin → pinValid s p = true → (s.pin p).owner = .free → s.answers = .error :: more →
    (x = if s.cfgAuxPin ≠ noPin ∧ pinValid s s.cfgAuxPin = true then s.cfgAuxPin else noPin) →
    (x ≠ noPin → x ≠ p ∧ (s.pin x).owner = .free) →
    ∃ t, exec (.bind p) s = .next t ∧ answered .cc .registrationFailed 0 t ∧
      (s.cfgMode = .drv → t.pin p = { s.pin p with dir := .output, out := 1 }) ∧
      (s.cfgMode = .od → t.pin p = { s.pin p with dir := .input }) ∧
      (x ≠ noPin → t.pin x = { s.pin x with dir := .output, out := 0 }) ∧
      emits s t ([.acq p true] ++ eventsIf (x ≠ noPin) [.acq x true, .dirOut x 0] ++
        eventsIf (s.cfgMode = .drv) [.dirOut p 1] ++ eventsIf (s.cfgMode = .od) [.dirIn p] ++
        eventsIf (s.cfgMode = .drv) [.reg 0b011 .error] ++ eventsIf (s.cfgMode = .od) [.reg 0b111 .error] ++
        eventsIf (x ≠ noPin) [.rel x] ++ [.rel p, .resp .cc .registrationFailed 0]) ∧
      t.answers = more ∧ t.agenda = s.agenda ∧ t.draws = s.draws ∧ keepsBinding s t ∧ keepsHold s t ∧ t.pwr = s.pwr ∧
      keepsStraps s t ∧ keepsPinsBut (if x ≠ noPin then [p, x] else [p]) s t ∧ keepsPortsBut .cc s t

/-- R202: whatever the engine answers, listed or free, BIND takes a next step that answers OK or one of four errors; after an
error no register has changed and every pin has the owner it had, and only the main and aux operands' direction and level
may differ. -/
def Obligations.FailedBindRollsBack : Prop :=
  ∀ (s : State) (p : PinId), ∃ t st, exec (.bind p) s = .next t ∧ answered .cc st 0 t ∧
    st ≠ .notBound ∧ st ≠ .illegalCommand ∧ keepsHold s t ∧ keepsStraps s t ∧ keepsPortsBut .cc s t ∧
    (st ≠ .ok → keepsBinding s t ∧ t.pwr = s.pwr ∧ (∀ q, (t.pin q).owner = (s.pin q).owner) ∧
      (∀ q, (t.pin q).extLow = (s.pin q).extLow) ∧ keepsPinsBut [p, s.cfgAuxPin] s t)

/-- The property S1 of spec/95_test_vectors.md: a BIND that answers OK, followed at once by QUERYPIN, returns that pin id. -/
def Obligations.QueryReturnsTheBoundPin : Prop :=
  ∀ (s t : State) (p : PinId), exec (.bind p) s = .next t → answered .cc .ok 0 t →
    ∃ u, exec .querypin t = .next u ∧ answered .cc .ok p u

/-- R162: QUERYPIN answers OK with MAIN, NONE if unbound, in every state, and does nothing else. The latch of the answer is the
model's choice, notes/assumptions/9. -/
def Obligations.QueryAnswersMain : Prop :=
  ∀ s : State, ∃ t, exec .querypin s = .next t ∧ onlyAnswers .cc .ok s.main s t

/-- R161, R193: UNBIND of an unbound block answers NotBound and does nothing else. -/
def Obligations.UnbindWhileUnboundFails : Prop :=
  ∀ s : State, s.main = noPin →
    ∃ t, exec .unbind s = .next t ∧ onlyAnswers .cc .notBound 0 s t

/-- R147, R148, R152, R161: UNBIND of a bound, idle block: power off, aux pin low, deregister, release main, release aux, in
that order; MAIN, AUX and HANDLE are cleared, PEND and MODE are not, and the pins keep direction and level but for the
aux pin's low. -/
def Obligations.UnbindReleasesTheBinding : Prop :=
  ∀ (s : State) (h : Handle), s.main ≠ noPin → s.seq = .idle → s.handle = some h → s.aux ≠ s.main →
    ∃ t, exec .unbind s = .next t ∧ answered .cc .ok 0 t ∧ t.main = noPin ∧ t.aux = noPin ∧ t.handle = none ∧
      t.mode = s.mode ∧ t.pwr = (if s.cfgCap = true then 0 else s.pwr) ∧
      t.pin s.main = { s.pin s.main with owner := .free } ∧
      (s.aux ≠ noPin → t.pin s.aux = { s.pin s.aux with owner := .free, out := 0 }) ∧
      emits s t (eventsIf s.cfgCap [.cap 0] ++ eventsIf (s.aux ≠ noPin) [.set s.aux 0] ++ [.dereg h, .rel s.main] ++
        eventsIf (s.aux ≠ noPin) [.rel s.aux] ++ [.resp .cc .ok 0]) ∧
      keepsInputs s t ∧ keepsHold s t ∧ keepsStraps s t ∧
      keepsPinsBut (if s.aux ≠ noPin then [s.main, s.aux] else [s.main]) s t ∧ keepsPortsBut .cc s t

/-- R205: an UNBIND of a bound block in a hold is not served: its request stays outstanding and nothing changes; so does a
TEARDOWN signal. The other Control Channel commands and the power hooks are answered. -/
def Obligations.HoldHoldsUnbindAndTeardown : Prop :=
  ∀ s : State, s.main ≠ noPin → s.seq = .puHold →
    exec .unbind s = .next s ∧ perform .serveTeardown s = .next s ∧
    (∀ i : Instr, i.port ≠ .bt → i ≠ .unbind → ∃ t st v, exec i s = .next t ∧ answered i.port st v t)

/-- R150, R199: a TEARDOWN signal is taken in every state, becomes pending and changes nothing else. It is held during a hold.
Served with the block idle, it leaves the block unbound: bound, it does to the binding, the pins and the trace what UNBIND does
but for the response; unbound, it does nothing. Requests outstanding stay outstanding. The one pending bit is
notes/assumptions/10. -/
def Obligations.TeardownIsHwExitIfBound : Prop :=
  (∀ s : State, perform .teardown s = .next { s with teardown := true }) ∧
  ∀ s : State, s.teardown = true →
    (s.main ≠ noPin → s.seq = .puHold → perform .serveTeardown s = .next s) ∧
    (s.seq = .idle → ∃ t, perform .serveTeardown s = .next t ∧ t.main = noPin ∧ t.teardown = false ∧
      (∀ p, t.port p = s.port p) ∧ (s.main = noPin → t = { s with teardown := false }) ∧
      (s.main ≠ noPin → ∃ u, exec .unbind s = .next u ∧ t.aux = u.aux ∧ t.handle = u.handle ∧ t.mode = u.mode ∧
        t.pwr = u.pwr ∧ t.pins = u.pins ∧ emits t u [.resp .cc .ok 0] ∧ keepsHold s t ∧ keepsStraps s t ∧
        keepsInputs s t))

/-- R149: HW_EXIT called on an unbound binding has no meaning, and no caller calls it so: neither UNBIND nor a served TEARDOWN
signal ever stops. The refusal's name is notes/assumptions/16. -/
def Obligations.HwExitUnboundIsRefused : Prop :=
  (∀ s : State, s.main = noPin → hwExit s = .refused .hwExitUnbound) ∧
  (∀ s : State, (∃ t, exec .unbind s = .next t) ∧ ∃ t, perform .serveTeardown s = .next t)

/-- R151: a BIND that answers OK, then an UNBIND, gives back every register, and every pin its owner. -/
def Obligations.UnbindUndoesBind : Prop :=
  ∀ (s t : State) (p : PinId), s.Inv → exec (.bind p) s = .next t → answered .cc .ok 0 t →
    ∃ u, exec .unbind t = .next u ∧ answered .cc .ok 0 u ∧ keepsBinding s u ∧ keepsHold s u ∧ u.pwr = s.pwr ∧
      keepsStraps s u ∧ ∀ q, (u.pin q).owner = (s.pin q).owner

/-- R163 (the property S4): bound to a pin, UNBIND then BIND of another valid, free pin succeeds if the engine accepts and
the aux pin, if configured, is not that pin; the first pin is free again, and ENV can take it. -/
def Obligations.RebindReleasesTheOldPin : Prop :=
  ∀ (s : State) (q : PinId) (h : Handle) (more : List EngAnswer), s.Inv → s.main ≠ noPin → s.seq = .idle →
    pinValid s q = true → (s.pin q).owner = .free → s.answers = .ok h :: more →
    ∃ t u v, exec .unbind s = .next t ∧ exec (.bind q) t = .next u ∧ answered .cc .ok 0 u ∧ u.main = q ∧
      u.handle = some h ∧ u.aux = s.aux ∧ (u.pin s.main).owner = .free ∧
      perform (.envAcquire s.main) u = .next v ∧ (v.pin s.main).owner = .other

/-! ### Power Hooks -/

/-- R180 to R183: a hook of a bound block with the capability calls it, whatever PWR is; otherwise it does nothing; it
answers OK, and no pin, no other register and no other port changes, in a hold or not. That it does nothing while
unbound is the spec's decision D17 (R182); the latch of the answer is the model's choice, notes/assumptions/9. -/
def Obligations.HooksSwitchTheCapability : Prop :=
  ∀ (s : State) (i : Instr) (v : Bit), (i = .suspend ∧ v = 0) ∨ (i = .resume ∧ v = 1) →
    ∃ t, exec i s = .next t ∧ answered .pm .ok 0 t ∧
      t.pwr = (if s.cfgCap = true ∧ s.main ≠ noPin then v else s.pwr) ∧
      emits s t (eventsIf (s.cfgCap = true ∧ s.main ≠ noPin) [.cap v] ++ [.resp .pm .ok 0]) ∧
      keepsInputs s t ∧ keepsBinding s t ∧ keepsHold s t ∧ keepsStraps s t ∧ keepsPinsBut [] s t ∧ keepsPortsBut .pm s t

/-- The property S8 of spec/95_test_vectors.md: SUSPEND then RESUME leaves what QUERYPIN returns and the pull-up power as they
were before the SUSPEND, in every state where a bound block with the capability is powered. -/
def Obligations.ResumeRestoresPower : Prop :=
  ∀ s : State, (s.cfgCap = true → s.main ≠ noPin → s.pwr = 1) →
    ∃ t u, exec .suspend s = .next t ∧ exec .resume t = .next u ∧ u.main = s.main ∧ u.pwr = s.pwr ∧ u.pins = s.pins

/-! ### Reset and startup -/

/-- R231 and R41: what RESET leaves when no static main pin is supplied, whatever the state before it: every register at its
reset value, the straps latched, the requests dropped without a response, the trace empty, the pin table as it was. The
port's empty response latch and the cleared TEARDOWN signal are the model's (notes/assumptions/9, 10). -/
def Obligations.ResetWithoutStaticPin : Prop :=
  ∀ (s : State) (d : Descriptor), d.mainPin = noPin →
    ∃ t, perform (.reset d) s = .next t ∧ t.main = noPin ∧ t.aux = noPin ∧ t.mode = d.mode ∧ t.pend = 0 ∧
      t.handle = none ∧ t.pwr = 0 ∧ t.seq = .idle ∧ t.boot = 0 ∧ t.cfgMainPin = d.mainPin ∧ t.cfgAuxPin = d.auxPin ∧
      t.cfgMode = d.mode ∧ t.cfgCap = d.cap ∧ (∀ p, t.port p = ⟨none, none⟩) ∧ t.teardown = false ∧ t.trace = [] ∧
      t.elapsed = 0 ∧ t.board = s.board ∧ t.pins = s.pins ∧ keepsInputs s t

/-- R29, R230, R233, R234: with a static main pin, RESET leaves what a BIND of that pin leaves after a RESET without one, but for
the response, and BOOT holds the BIND's status; the straps are latched, the board is kept, and requests and a pending TEARDOWN
are dropped. A warm RESET, the cleared TEARDOWN and the empty latch are the model's (notes/assumptions/7, 10, 9). -/
def Obligations.StartupIsABind : Prop :=
  ∀ (s : State) (d : Descriptor), d.mainPin ≠ noPin →
    ∃ r t u st, perform (.reset { d with mainPin := noPin }) s = .next r ∧ perform (.reset d) s = .next t ∧
      exec (.bind d.mainPin) r = .next u ∧ answered .cc st 0 u ∧ t.boot = st.code ∧ st ≠ .alreadyBound ∧
      keepsBinding u t ∧ keepsHold u t ∧ t.pwr = u.pwr ∧ t.pins = u.pins ∧ emits t u [.resp .cc st 0] ∧
      t.cfgMainPin = d.mainPin ∧ t.cfgAuxPin = d.auxPin ∧ t.cfgMode = d.mode ∧ t.cfgCap = d.cap ∧ t.board = s.board ∧
      t.teardown = false ∧ (∀ p, t.port p = ⟨none, none⟩) ∧ keepsInputs u t

/-! ### Whole-machine rules -/

/-- The invariants of R21, R22, R26 to R28, R33 and R35 hold right after reset. -/
def Obligations.ResetHasTheInvariants : Prop := State.reset.Inv ∧ State.reset.ownsOnlyBound

/-- The invariants of R21, R22, R26 to R28, R33 and R35 (1), (2), (3), (5), (6), (7), and that MAIN and AUX are held, are
kept by every step, whatever move comes next, a RESET at any time (notes/assumptions/7) among them. -/
def Obligations.StepKeepsTheInvariants : Prop := ∀ s t : State, s.Inv → step s = .next t → t.Inv

/-- R31, R35 (4): the block holds no pin but MAIN and AUX: every step keeps this, unless it is a RESET of a bound block,
which leaks the pins (R230; notes/assumptions/7). -/
def Obligations.StepKeepsExclusiveOwnership : Prop :=
  ∀ s t : State, s.Inv → s.ownsOnlyBound → (s.nextIsReset = true → s.main = noPin) → step s = .next t → t.ownsOnlyBound

/-- R40: the trace is only appended to (a RESET empties it: R41). -/
def Obligations.TraceIsOnlyAppendedTo : Prop :=
  ∀ s t : State, s.nextIsReset = false → step s = .next t → s.trace <+: t.trace

/-- R211: what each requester can change. Serving ENG, the timer and an issued request change nothing but PEND, SEQ with
its timer, and direction and level of the main pin; serving PM changes nothing but PWR; a change of MAIN, AUX, MODE, HANDLE
or of a pin the block holds comes from serving CC or from PLAT. Ports, trace and free values aside. -/
def Obligations.RightsOfTheRequesters : Prop :=
  ∀ (s t : State) (m : Move), perform m s = .next t →
    ((m = .serve .bt ∨ m = .puExpire ∨ m = .tick ∨ ∃ p w, m = .issue p w) →
      keepsBinding s t ∧ t.pwr = s.pwr ∧ keepsStraps s t ∧ keepsPinsBut [s.main] s t ∧
      (t.pin s.main).owner = (s.pin s.main).owner ∧ (t.pin s.main).extLow = (s.pin s.main).extLow) ∧
    (m = .serve .pm → keepsBinding s t ∧ keepsHold s t ∧ keepsStraps s t ∧ keepsPinsBut [] s t) ∧
    (¬(keepsBinding s t ∧ ∀ q, (s.pin q).owner = .self ↔ (t.pin q).owner = .self) →
      m = .serve .cc ∨ m = .serveTeardown ∨ ∃ d, m = .reset d)

/-- R263: the whole transition relation of the control state, from every state that meets the invariants. U to B only by
BIND or RESET's startup, B to U only by UNBIND or TEARDOWN, B to H only by the firing SET_PULLUP, H to B only by
PU_EXPIRE, never H to U but by RESET. -/
def Obligations.ControlTransitions : Prop :=
  ∀ (s t : State) (m : Move), s.Inv → (∀ d, m ≠ .reset d) → perform m s = .next t →
    t.control = s.control ∨
    (s.control = .unbound ∧ t.control = .bound ∧ m = .serve .cc ∧ ∃ p, s.cc.req = some (encode (.bind p))) ∨
    (s.control = .bound ∧ t.control = .unbound ∧
      ((m = .serve .cc ∧ s.cc.req = some (encode .unbind)) ∨ (m = .serveTeardown ∧ s.teardown = true))) ∨
    (s.control = .bound ∧ t.control = .hold ∧ m = .serve .bt ∧ s.bt.req = some (encode (.setPullup 0)) ∧
      s.mode = .od ∧ s.pend ≠ 0) ∨
    (s.control = .hold ∧ t.control = .bound ∧ m = .puExpire)

/-- R230, R263: a RESET from any state ends unbound or bound, never in a hold. That a warm RESET is modelled, which R230 lets a
model refuse, is notes/assumptions/7. -/
def Obligations.ResetEndsUnboundOrBound : Prop :=
  ∀ (s : State) (d : Descriptor), ∃ t, perform (.reset d) s = .next t ∧ (t.control = .unbound ∨ t.control = .bound) ∧
    (d.mainPin = noPin → t.control = .unbound)

/-- R82, R125, R261: during a hold the main pin, the binding and PEND stay what they are; only a TICK advances the timer; and
the hold ends only when at least PEND TICKs have passed (notes/assumptions/12), or by RESET. -/
def Obligations.HoldIsTimedAndUndisturbed : Prop :=
  ∀ (s t : State) (m : Move), s.Inv → s.seq = .puHold → (∀ d, m ≠ .reset d) → perform m s = .next t →
    keepsBinding s t ∧ (s.pin s.main).owner = (t.pin s.main).owner ∧
    ((t.seq = .puHold ∧ t.pend = s.pend ∧ t.elapsed = s.elapsed + (if m = .tick then 1 else 0) ∧
        (t.pin s.main).dir = .output ∧ (t.pin s.main).out = 1) ∨
      (m = .puExpire ∧ s.pend.toNat ≤ s.elapsed ∧ t.seq = .idle))

/-- R60, R61, R73: every move of the environment goes on, and changes no register of the block and no owner, direction or level
of a pin the block holds. An acquire of a held pin, whoever holds it, fails and changes nothing; so does a release or a change
of a pin that no other user holds, and any move outside the legal range (notes/assumptions/15). -/
def Obligations.EnvironmentLeavesHeldPinsAlone : Prop :=
  ∀ (s : State) (m : Move), ((∃ p, m = .envAcquire p) ∨ (∃ p, m = .envRelease p) ∨ (∃ p d v, m = .envDrive p d v) ∨
      (∃ p b, m = .envLine p b)) →
    (∃ t, perform m s = .next t ∧ keepsBinding s t ∧ keepsHold s t ∧ t.pwr = s.pwr ∧ keepsStraps s t ∧
      t.trace = s.trace ∧ (∀ p, t.port p = s.port p) ∧ t.teardown = s.teardown ∧ keepsInputs s t ∧
      ∀ q, (s.pin q).owner = .self →
        (t.pin q).owner = .self ∧ (t.pin q).dir = (s.pin q).dir ∧ (t.pin q).out = (s.pin q).out) ∧
    (∀ p, (s.pin p).owner ≠ .free ∨ pinValid s p = false → m = .envAcquire p → perform m s = .next s) ∧
    (∀ p d v, (s.pin p).owner ≠ .other ∨ pinValid s p = false → m = .envRelease p ∨ m = .envDrive p d v →
      perform m s = .next s) ∧
    (∀ p b, pinValid s p = false → m = .envLine p b → perform m s = .next s)

/-- R60, R61: what each of the environment's moves does where it may be made. -/
def Obligations.EnvironmentMovesTakeEffect : Prop :=
  ∀ (s : State) (p : PinId), pinValid s p = true →
    ((s.pin p).owner = .free → ∃ t, perform (.envAcquire p) s = .next t ∧ t.pin p = { s.pin p with owner := .other } ∧
      keepsPinsBut [p] s t) ∧
    ((s.pin p).owner = .other → ∃ t, perform (.envRelease p) s = .next t ∧ t.pin p = { s.pin p with owner := .free } ∧
      keepsPinsBut [p] s t) ∧
    (∀ d v, (s.pin p).owner = .other → ∃ t, perform (.envDrive p d v) s = .next t ∧
      t.pin p = { s.pin p with dir := d, out := v } ∧ keepsPinsBut [p] s t) ∧
    (∀ b, ∃ t, perform (.envLine p b) s = .next t ∧ t.pin p = { s.pin p with extLow := b } ∧ keepsPinsBut [p] s t)

/-- R125, R205, R251, R252: left to itself, with no further move of its surroundings, the machine comes to rest from every
state within a number of steps it can be told beforehand, whatever order the arbiter picks: every outstanding request is
answered, every hold ends, a held UNBIND and a held TEARDOWN are served. That the block runs by itself, one step serving one
request or letting one TICK pass, is notes/assumptions/6. -/
def Obligations.LeftAloneTheMachineComesToRest : Prop :=
  ∀ s : State, s.agenda = [] → ∃ t, Host.Core.run Sys2Proof.core s.pendingWork s = .next t ∧ t.atRest = true
end

