-- ==== Sys2Proof/Laws/State.lean ====
section
/-! SUPPORT. What each base update of State leaves in each field. -/

namespace Sys2Proof.Machine

@[simp] theorem emit_main (s : State) (e : Event) : (s.emit e).main = s.main := rfl
@[simp] theorem emit_aux (s : State) (e : Event) : (s.emit e).aux = s.aux := rfl
@[simp] theorem emit_mode (s : State) (e : Event) : (s.emit e).mode = s.mode := rfl
@[simp] theorem emit_pend (s : State) (e : Event) : (s.emit e).pend = s.pend := rfl
@[simp] theorem emit_handle (s : State) (e : Event) : (s.emit e).handle = s.handle := rfl
@[simp] theorem emit_pwr (s : State) (e : Event) : (s.emit e).pwr = s.pwr := rfl
@[simp] theorem emit_seq (s : State) (e : Event) : (s.emit e).seq = s.seq := rfl
@[simp] theorem emit_boot (s : State) (e : Event) : (s.emit e).boot = s.boot := rfl
@[simp] theorem emit_cfgMainPin (s : State) (e : Event) : (s.emit e).cfgMainPin = s.cfgMainPin := rfl
@[simp] theorem emit_cfgAuxPin (s : State) (e : Event) : (s.emit e).cfgAuxPin = s.cfgAuxPin := rfl
@[simp] theorem emit_cfgMode (s : State) (e : Event) : (s.emit e).cfgMode = s.cfgMode := rfl
@[simp] theorem emit_cfgCap (s : State) (e : Event) : (s.emit e).cfgCap = s.cfgCap := rfl
@[simp] theorem emit_pins (s : State) (e : Event) : (s.emit e).pins = s.pins := rfl
@[simp] theorem emit_cc (s : State) (e : Event) : (s.emit e).cc = s.cc := rfl
@[simp] theorem emit_bt (s : State) (e : Event) : (s.emit e).bt = s.bt := rfl
@[simp] theorem emit_pm (s : State) (e : Event) : (s.emit e).pm = s.pm := rfl
@[simp] theorem emit_teardown (s : State) (e : Event) : (s.emit e).teardown = s.teardown := rfl
@[simp] theorem emit_trace (s : State) (e : Event) : (s.emit e).trace = s.trace ++ [e] := rfl
@[simp] theorem emit_elapsed (s : State) (e : Event) : (s.emit e).elapsed = s.elapsed := rfl
@[simp] theorem emit_board (s : State) (e : Event) : (s.emit e).board = s.board := rfl
@[simp] theorem emit_agenda (s : State) (e : Event) : (s.emit e).agenda = s.agenda := rfl
@[simp] theorem emit_answers (s : State) (e : Event) : (s.emit e).answers = s.answers := rfl
@[simp] theorem emit_draws (s : State) (e : Event) : (s.emit e).draws = s.draws := rfl

@[simp] theorem writePin_main (s : State) (p : PinId) (v : Pin) : (s.writePin p v).main = s.main := rfl
@[simp] theorem writePin_aux (s : State) (p : PinId) (v : Pin) : (s.writePin p v).aux = s.aux := rfl
@[simp] theorem writePin_mode (s : State) (p : PinId) (v : Pin) : (s.writePin p v).mode = s.mode := rfl
@[simp] theorem writePin_pend (s : State) (p : PinId) (v : Pin) : (s.writePin p v).pend = s.pend := rfl
@[simp] theorem writePin_handle (s : State) (p : PinId) (v : Pin) : (s.writePin p v).handle = s.handle := rfl
@[simp] theorem writePin_pwr (s : State) (p : PinId) (v : Pin) : (s.writePin p v).pwr = s.pwr := rfl
@[simp] theorem writePin_seq (s : State) (p : PinId) (v : Pin) : (s.writePin p v).seq = s.seq := rfl
@[simp] theorem writePin_boot (s : State) (p : PinId) (v : Pin) : (s.writePin p v).boot = s.boot := rfl
@[simp] theorem writePin_cfgMainPin (s : State) (p : PinId) (v : Pin) : (s.writePin p v).cfgMainPin = s.cfgMainPin := rfl
@[simp] theorem writePin_cfgAuxPin (s : State) (p : PinId) (v : Pin) : (s.writePin p v).cfgAuxPin = s.cfgAuxPin := rfl
@[simp] theorem writePin_cfgMode (s : State) (p : PinId) (v : Pin) : (s.writePin p v).cfgMode = s.cfgMode := rfl
@[simp] theorem writePin_cfgCap (s : State) (p : PinId) (v : Pin) : (s.writePin p v).cfgCap = s.cfgCap := rfl
@[simp] theorem writePin_pins (s : State) (p : PinId) (v : Pin) :
    (s.writePin p v).pins = Memory.write s.pins p.toNat v := rfl
@[simp] theorem writePin_cc (s : State) (p : PinId) (v : Pin) : (s.writePin p v).cc = s.cc := rfl
@[simp] theorem writePin_bt (s : State) (p : PinId) (v : Pin) : (s.writePin p v).bt = s.bt := rfl
@[simp] theorem writePin_pm (s : State) (p : PinId) (v : Pin) : (s.writePin p v).pm = s.pm := rfl
@[simp] theorem writePin_teardown (s : State) (p : PinId) (v : Pin) : (s.writePin p v).teardown = s.teardown := rfl
@[simp] theorem writePin_trace (s : State) (p : PinId) (v : Pin) : (s.writePin p v).trace = s.trace := rfl
@[simp] theorem writePin_elapsed (s : State) (p : PinId) (v : Pin) : (s.writePin p v).elapsed = s.elapsed := rfl
@[simp] theorem writePin_board (s : State) (p : PinId) (v : Pin) : (s.writePin p v).board = s.board := rfl
@[simp] theorem writePin_agenda (s : State) (p : PinId) (v : Pin) : (s.writePin p v).agenda = s.agenda := rfl
@[simp] theorem writePin_answers (s : State) (p : PinId) (v : Pin) : (s.writePin p v).answers = s.answers := rfl
@[simp] theorem writePin_draws (s : State) (p : PinId) (v : Pin) : (s.writePin p v).draws = s.draws := rfl

@[simp] theorem setPort_main (s : State) (p : PortId) (v : PortState) : (s.setPort p v).main = s.main := by cases p <;> rfl
@[simp] theorem setPort_aux (s : State) (p : PortId) (v : PortState) : (s.setPort p v).aux = s.aux := by cases p <;> rfl
@[simp] theorem setPort_mode (s : State) (p : PortId) (v : PortState) : (s.setPort p v).mode = s.mode := by cases p <;> rfl
@[simp] theorem setPort_pend (s : State) (p : PortId) (v : PortState) : (s.setPort p v).pend = s.pend := by cases p <;> rfl
@[simp] theorem setPort_handle (s : State) (p : PortId) (v : PortState) : (s.setPort p v).handle = s.handle := by cases p <;> rfl
@[simp] theorem setPort_pwr (s : State) (p : PortId) (v : PortState) : (s.setPort p v).pwr = s.pwr := by cases p <;> rfl
@[simp] theorem setPort_seq (s : State) (p : PortId) (v : PortState) : (s.setPort p v).seq = s.seq := by cases p <;> rfl
@[simp] theorem setPort_boot (s : State) (p : PortId) (v : PortState) : (s.setPort p v).boot = s.boot := by cases p <;> rfl
@[simp] theorem setPort_cfgMainPin (s : State) (p : PortId) (v : PortState) : (s.setPort p v).cfgMainPin = s.cfgMainPin := by cases p <;> rfl
@[simp] theorem setPort_cfgAuxPin (s : State) (p : PortId) (v : PortState) : (s.setPort p v).cfgAuxPin = s.cfgAuxPin := by cases p <;> rfl
@[simp] theorem setPort_cfgMode (s : State) (p : PortId) (v : PortState) : (s.setPort p v).cfgMode = s.cfgMode := by cases p <;> rfl
@[simp] theorem setPort_cfgCap (s : State) (p : PortId) (v : PortState) : (s.setPort p v).cfgCap = s.cfgCap := by cases p <;> rfl
@[simp] theorem setPort_pins (s : State) (p : PortId) (v : PortState) : (s.setPort p v).pins = s.pins := by cases p <;> rfl
@[simp] theorem setPort_cc (s : State) (p : PortId) (v : PortState) :
    (s.setPort p v).cc = if p = .cc then v else s.cc := by cases p <;> rfl
@[simp] theorem setPort_bt (s : State) (p : PortId) (v : PortState) :
    (s.setPort p v).bt = if p = .bt then v else s.bt := by cases p <;> rfl
@[simp] theorem setPort_pm (s : State) (p : PortId) (v : PortState) :
    (s.setPort p v).pm = if p = .pm then v else s.pm := by cases p <;> rfl
@[simp] theorem setPort_teardown (s : State) (p : PortId) (v : PortState) : (s.setPort p v).teardown = s.teardown := by cases p <;> rfl
@[simp] theorem setPort_trace (s : State) (p : PortId) (v : PortState) : (s.setPort p v).trace = s.trace := by cases p <;> rfl
@[simp] theorem setPort_elapsed (s : State) (p : PortId) (v : PortState) : (s.setPort p v).elapsed = s.elapsed := by cases p <;> rfl
@[simp] theorem setPort_board (s : State) (p : PortId) (v : PortState) : (s.setPort p v).board = s.board := by cases p <;> rfl
@[simp] theorem setPort_agenda (s : State) (p : PortId) (v : PortState) : (s.setPort p v).agenda = s.agenda := by cases p <;> rfl
@[simp] theorem setPort_answers (s : State) (p : PortId) (v : PortState) : (s.setPort p v).answers = s.answers := by cases p <;> rfl
@[simp] theorem setPort_draws (s : State) (p : PortId) (v : PortState) : (s.setPort p v).draws = s.draws := by cases p <;> rfl

@[simp] theorem emit_port (s : State) (e : Event) (q : PortId) : (s.emit e).port q = s.port q := by cases q <;> rfl

@[simp] theorem writePin_port (s : State) (p : PinId) (v : Pin) (q : PortId) : (s.writePin p v).port q = s.port q := by
  cases q <;> rfl

@[simp] theorem setPort_port_same (s : State) (p : PortId) (v : PortState) : (s.setPort p v).port p = v := by
  cases p <;> rfl

@[simp] theorem setPort_port_ne (s : State) {p q : PortId} (v : PortState) (h : q ≠ p) :
    (s.setPort p v).port q = s.port q := by
  cases p <;> cases q <;> first | rfl | exact absurd rfl h

end Sys2Proof.Machine
end

