-- ==== Sys2Proof/Laws/PinTable.lean ====
section
/-! SUPPORT. The pin table: a read after a write (in any table), the canonical form, and that equal reads mean equal
tables. -/

namespace Sys2Proof.Machine

theorem Memory.above_iff {a : Nat} {m : Memory} : Memory.above a m = true ↔ ∀ e ∈ m, a < e.1 := by
  simp [Memory.above]

/-- An id the table does not list reads as unlisted. -/
theorem Memory.read_unlisted {a : Nat} {m : Memory} (h : ∀ e ∈ m, e.1 ≠ a) : Memory.read m a = Pin.unlisted := by
  induction m with
  | nil => rfl
  | cons e rest ih =>
    simp only [List.mem_cons, forall_eq_or_imp] at h
    simpa only [Memory.read, if_neg (Ne.symm h.1)] using ih h.2

theorem Memory.erase_ne (m : Memory) (a : Nat) : ∀ e ∈ Memory.erase m a, e.1 ≠ a := by
  simp [Memory.erase]

theorem Memory.read_erase_ne {a b : Nat} (m : Memory) (hab : b ≠ a) :
    Memory.read (Memory.erase m a) b = Memory.read m b := by
  induction m with
  | nil => rfl
  | cons e rest ih =>
    by_cases he : e.1 = a
    · simp only [Memory.erase, List.filter_cons, ne_eq, he, not_true_eq_false, decide_false, Bool.false_eq_true,
        if_false, Memory.read, if_neg hab]
      exact ih
    · simp only [Memory.erase, List.filter_cons, ne_eq, he, not_false_eq_true, decide_true, if_true,
        Memory.read]
      split
      · rfl
      · exact ih

theorem Memory.read_cons_ne {k a : Nat} {v : Pin} {rest : Memory} (h : a ≠ k) :
    Memory.read (Memory.cons k v rest) a = Memory.read rest a := by
  unfold Memory.cons
  split
  · rfl
  · simp [Memory.read, h]

theorem Memory.read_cons_same {k : Nat} {v : Pin} {rest : Memory} (h : ∀ e ∈ rest, e.1 ≠ k) :
    Memory.read (Memory.cons k v rest) k = v := by
  unfold Memory.cons
  split
  · next hv => rw [Memory.read_unlisted h, hv]
  · simp [Memory.read]

theorem Memory.read_insert_same {a : Nat} {v : Pin} {m : Memory} (h : ∀ e ∈ m, e.1 ≠ a) :
    Memory.read (Memory.insert m a v) a = v := by
  induction m with
  | nil => exact Memory.read_cons_same h
  | cons e rest ih =>
    simp only [Memory.insert]
    split
    · exact Memory.read_cons_same h
    · simp only [List.mem_cons, forall_eq_or_imp] at h
      simpa only [Memory.read, if_neg (Ne.symm h.1)] using ih h.2

theorem Memory.read_insert_ne {a b : Nat} {v : Pin} {m : Memory} (hab : b ≠ a) :
    Memory.read (Memory.insert m a v) b = Memory.read m b := by
  induction m with
  | nil => exact Memory.read_cons_ne hab
  | cons e rest ih =>
    simp only [Memory.insert]
    split
    · exact Memory.read_cons_ne hab
    · simp only [Memory.read]
      split
      · rfl
      · exact ih

/-- A row just written reads back. -/
@[simp] theorem Memory.read_write_same (m : Memory) (a : Nat) (v : Pin) : Memory.read (Memory.write m a v) a = v :=
  Memory.read_insert_same (Memory.erase_ne m a)

/-- A write leaves every other row alone. -/
theorem Memory.read_write_ne (m : Memory) {a b : Nat} (v : Pin) (hab : b ≠ a) :
    Memory.read (Memory.write m a v) b = Memory.read m b := by
  rw [Memory.write, Memory.read_insert_ne hab, Memory.read_erase_ne m hab]

/-! The canonical form. -/

theorem Memory.wf_cons_iff {k : Nat} {v : Pin} {rest : Memory} :
    Memory.wf ((k, v) :: rest) = true ↔ v ≠ Pin.unlisted ∧ (∀ e ∈ rest, k < e.1) ∧ Memory.wf rest = true := by
  simp only [Memory.wf, Bool.and_eq_true, bne_iff_ne, ne_eq, Memory.above_iff, and_assoc]

theorem Memory.wf_cons {k : Nat} {v : Pin} {rest : Memory} (ha : ∀ e ∈ rest, k < e.1)
    (h : Memory.wf rest = true) : Memory.wf (Memory.cons k v rest) = true := by
  unfold Memory.cons
  split
  · exact h
  · next hv => exact Memory.wf_cons_iff.2 ⟨hv, ha, h⟩

theorem Memory.mem_cons {k : Nat} {v : Pin} {rest : Memory} {e : Nat × Pin} (h : e ∈ Memory.cons k v rest) :
    e = (k, v) ∨ e ∈ rest := by
  unfold Memory.cons at h
  split at h
  · exact .inr h
  · simpa using h

theorem Memory.mem_insert {a : Nat} {v : Pin} {m : Memory} {e : Nat × Pin} (h : e ∈ Memory.insert m a v) :
    e = (a, v) ∨ e ∈ m := by
  induction m with
  | nil => exact Memory.mem_cons h
  | cons f rest ih =>
    simp only [Memory.insert] at h
    split at h
    · exact Memory.mem_cons h
    · rcases List.mem_cons.1 h with rfl | h
      · exact .inr (by simp)
      · rcases ih h with h | h
        · exact .inl h
        · exact .inr (by simp [h])

theorem Memory.wf_erase {m : Memory} (a : Nat) (h : Memory.wf m = true) : Memory.wf (Memory.erase m a) = true := by
  induction m with
  | nil => rfl
  | cons e rest ih =>
    obtain ⟨hv, ha, hr⟩ := Memory.wf_cons_iff.1 h
    simp only [Memory.erase, List.filter_cons]
    split
    · exact Memory.wf_cons_iff.2 ⟨hv, fun f hf => ha f (List.mem_filter.1 hf).1, ih hr⟩
    · exact ih hr

theorem Memory.wf_insert {m : Memory} {a : Nat} (v : Pin) (hm : ∀ e ∈ m, e.1 ≠ a) (h : Memory.wf m = true) :
    Memory.wf (Memory.insert m a v) = true := by
  induction m with
  | nil => exact Memory.wf_cons (by simp) h
  | cons e rest ih =>
    obtain ⟨hv, ha, hr⟩ := Memory.wf_cons_iff.1 h
    simp only [List.mem_cons, forall_eq_or_imp] at hm
    simp only [Memory.insert]
    split
    · next hlt =>
      refine Memory.wf_cons ?_ h
      simp only [List.mem_cons, forall_eq_or_imp]
      exact ⟨hlt, fun f hf => lt_trans hlt (ha f hf)⟩
    · next hge =>
      refine Memory.wf_cons_iff.2 ⟨hv, fun f hf => ?_, ih hm.2 hr⟩
      rcases Memory.mem_insert hf with rfl | hf
      · have := hm.1
        simp only at this ⊢
        omega
      · exact ha f hf

/-- Writing one row keeps the canonical form. -/
theorem Memory.wf_write {m : Memory} (a : Nat) (v : Pin) (h : Memory.wf m = true) :
    Memory.wf (Memory.write m a v) = true :=
  Memory.wf_insert v (Memory.erase_ne m a) (Memory.wf_erase a h)

theorem Memory.read_below {a : Nat} {m : Memory} (h : ∀ e ∈ m, a < e.1) : Memory.read m a = Pin.unlisted :=
  Memory.read_unlisted fun e he => Nat.ne_of_gt (h e he)

/-- Two tables in canonical form that read alike are the same table. -/
theorem Memory.ext_of_read {m n : Memory} (hm : Memory.wf m = true) (hn : Memory.wf n = true)
    (h : ∀ a, Memory.read m a = Memory.read n a) : m = n := by
  induction m generalizing n with
  | nil =>
    cases n with
    | nil => rfl
    | cons f r =>
      have := h f.1
      simp only [Memory.read, if_true] at this
      exact absurd this.symm (Memory.wf_cons_iff.1 hn).1
  | cons e rest ih =>
    obtain ⟨hv, ha, hr⟩ := Memory.wf_cons_iff.1 hm
    cases n with
    | nil =>
      have := h e.1
      simp only [Memory.read, if_true] at this
      exact absurd this hv
    | cons f r =>
      obtain ⟨hv', ha', hr'⟩ := Memory.wf_cons_iff.1 hn
      rcases lt_trichotomy e.1 f.1 with hlt | heq | hlt
      · have := h e.1
        simp only [Memory.read, if_true, if_neg (Nat.ne_of_lt hlt)] at this
        exact absurd (this.trans (Memory.read_below fun g hg => lt_trans hlt (ha' g hg))) hv
      · have h1 := h e.1
        simp only [Memory.read, if_true, heq] at h1
        have hef : e = f := Prod.ext heq h1
        subst hef
        congr 1
        refine ih hr hr' fun a => ?_
        have h2 := h a
        simp only [Memory.read] at h2
        by_cases hae : a = e.1
        · subst hae
          rw [Memory.read_below ha, Memory.read_below ha']
        · simpa [hae] using h2
      · have := h f.1
        simp only [Memory.read, if_true, if_neg (Nat.ne_of_lt hlt)] at this
        exact absurd (this.symm.trans (Memory.read_below fun g hg => lt_trans hlt (ha g hg))) hv'

/-! One pin's row after each base update. -/

@[simp] theorem emit_pin (s : State) (e : Event) (q : PinId) : (s.emit e).pin q = s.pin q := rfl

@[simp] theorem setPort_pin (s : State) (p : PortId) (v : PortState) (q : PinId) : (s.setPort p v).pin q = s.pin q := by
  cases p <;> rfl

@[simp] theorem writePin_pin_same (s : State) (p : PinId) (v : Pin) : (s.writePin p v).pin p = v :=
  Memory.read_write_same _ _ _

theorem writePin_pin_ne (s : State) {p q : PinId} (v : Pin) (h : q ≠ p) : (s.writePin p v).pin q = s.pin q :=
  Memory.read_write_ne _ _ fun hn => h (BitVec.eq_of_toNat_eq hn)

/-- The row at any pin after a write. -/
theorem writePin_pin (s : State) (p q : PinId) (v : Pin) :
    (s.writePin p v).pin q = if q = p then v else s.pin q := by
  split
  · next h => subst h; exact writePin_pin_same s q v
  · next h => exact writePin_pin_ne s v h

end Sys2Proof.Machine
end

