-- ==== Sys2Proof/Laws/Ops.lean ====
section
/-! SUPPORT. What each primitive and `respond` leave in each field: the row of the one pin, one event, and nothing else. -/

namespace Sys2Proof.Machine

/-- Responding is one port, one event (R93). -/
theorem respond_eq (p : PortId) (st : Status) (v : Value) (s : State) :
    respond p st v s = (s.setPort p ⟨none, some (responseWord st v)⟩).emit (.resp p st v) := rfl

@[simp] theorem respond_main (p : PortId) (st : Status) (v : Value) (s : State) :
    (respond p st v s).main = s.main := by cases p <;> rfl
@[simp] theorem respond_aux (p : PortId) (st : Status) (v : Value) (s : State) :
    (respond p st v s).aux = s.aux := by cases p <;> rfl
@[simp] theorem respond_mode (p : PortId) (st : Status) (v : Value) (s : State) :
    (respond p st v s).mode = s.mode := by cases p <;> rfl
@[simp] theorem respond_pend (p : PortId) (st : Status) (v : Value) (s : State) :
    (respond p st v s).pend = s.pend := by cases p <;> rfl
@[simp] theorem respond_handle (p : PortId) (st : Status) (v : Value) (s : State) :
    (respond p st v s).handle = s.handle := by cases p <;> rfl
@[simp] theorem respond_pwr (p : PortId) (st : Status) (v : Value) (s : State) :
    (respond p st v s).pwr = s.pwr := by cases p <;> rfl
@[simp] theorem respond_seq (p : PortId) (st : Status) (v : Value) (s : State) :
    (respond p st v s).seq = s.seq := by cases p <;> rfl
@[simp] theorem respond_boot (p : PortId) (st : Status) (v : Value) (s : State) :
    (respond p st v s).boot = s.boot := by cases p <;> rfl
@[simp] theorem respond_cfgMainPin (p : PortId) (st : Status) (v : Value) (s : State) :
    (respond p st v s).cfgMainPin = s.cfgMainPin := by cases p <;> rfl
@[simp] theorem respond_cfgAuxPin (p : PortId) (st : Status) (v : Value) (s : State) :
    (respond p st v s).cfgAuxPin = s.cfgAuxPin := by cases p <;> rfl
@[simp] theorem respond_cfgMode (p : PortId) (st : Status) (v : Value) (s : State) :
    (respond p st v s).cfgMode = s.cfgMode := by cases p <;> rfl
@[simp] theorem respond_cfgCap (p : PortId) (st : Status) (v : Value) (s : State) :
    (respond p st v s).cfgCap = s.cfgCap := by cases p <;> rfl
@[simp] theorem respond_pins (p : PortId) (st : Status) (v : Value) (s : State) :
    (respond p st v s).pins = s.pins := by cases p <;> rfl
@[simp] theorem respond_teardown (p : PortId) (st : Status) (v : Value) (s : State) :
    (respond p st v s).teardown = s.teardown := by cases p <;> rfl
@[simp] theorem respond_elapsed (p : PortId) (st : Status) (v : Value) (s : State) :
    (respond p st v s).elapsed = s.elapsed := by cases p <;> rfl
@[simp] theorem respond_board (p : PortId) (st : Status) (v : Value) (s : State) :
    (respond p st v s).board = s.board := by cases p <;> rfl
@[simp] theorem respond_agenda (p : PortId) (st : Status) (v : Value) (s : State) :
    (respond p st v s).agenda = s.agenda := by cases p <;> rfl
@[simp] theorem respond_answers (p : PortId) (st : Status) (v : Value) (s : State) :
    (respond p st v s).answers = s.answers := by cases p <;> rfl
@[simp] theorem respond_draws (p : PortId) (st : Status) (v : Value) (s : State) :
    (respond p st v s).draws = s.draws := by cases p <;> rfl
@[simp] theorem respond_trace (p : PortId) (st : Status) (v : Value) (s : State) :
    (respond p st v s).trace = s.trace ++ [.resp p st v] := by cases p <;> rfl
@[simp] theorem respond_pin (p : PortId) (st : Status) (v : Value) (s : State) (q : PinId) :
    (respond p st v s).pin q = s.pin q := by cases p <;> rfl
@[simp] theorem respond_port_same (p : PortId) (st : Status) (v : Value) (s : State) :
    (respond p st v s).port p = ⟨none, some (responseWord st v)⟩ := by cases p <;> rfl
@[simp] theorem respond_port_ne {p q : PortId} (st : Status) (v : Value) (s : State) (h : q ≠ p) :
    (respond p st v s).port q = s.port q := by
  simp [respond, h]
@[simp] theorem respond_req_same (p : PortId) (st : Status) (v : Value) (s : State) :
    ((respond p st v s).port p).req = none := by cases p <;> rfl

@[simp] theorem pinRelease_main (p : PinId) (s : State) : (pinRelease p s).main = s.main := rfl
@[simp] theorem pinRelease_aux (p : PinId) (s : State) : (pinRelease p s).aux = s.aux := rfl
@[simp] theorem pinRelease_mode (p : PinId) (s : State) : (pinRelease p s).mode = s.mode := rfl
@[simp] theorem pinRelease_pend (p : PinId) (s : State) : (pinRelease p s).pend = s.pend := rfl
@[simp] theorem pinRelease_handle (p : PinId) (s : State) : (pinRelease p s).handle = s.handle := rfl
@[simp] theorem pinRelease_pwr (p : PinId) (s : State) : (pinRelease p s).pwr = s.pwr := rfl
@[simp] theorem pinRelease_seq (p : PinId) (s : State) : (pinRelease p s).seq = s.seq := rfl
@[simp] theorem pinRelease_boot (p : PinId) (s : State) : (pinRelease p s).boot = s.boot := rfl
@[simp] theorem pinRelease_cfgMainPin (p : PinId) (s : State) : (pinRelease p s).cfgMainPin = s.cfgMainPin := rfl
@[simp] theorem pinRelease_cfgAuxPin (p : PinId) (s : State) : (pinRelease p s).cfgAuxPin = s.cfgAuxPin := rfl
@[simp] theorem pinRelease_cfgMode (p : PinId) (s : State) : (pinRelease p s).cfgMode = s.cfgMode := rfl
@[simp] theorem pinRelease_cfgCap (p : PinId) (s : State) : (pinRelease p s).cfgCap = s.cfgCap := rfl
@[simp] theorem pinRelease_cc (p : PinId) (s : State) : (pinRelease p s).cc = s.cc := rfl
@[simp] theorem pinRelease_bt (p : PinId) (s : State) : (pinRelease p s).bt = s.bt := rfl
@[simp] theorem pinRelease_pm (p : PinId) (s : State) : (pinRelease p s).pm = s.pm := rfl
@[simp] theorem pinRelease_teardown (p : PinId) (s : State) : (pinRelease p s).teardown = s.teardown := rfl
@[simp] theorem pinRelease_elapsed (p : PinId) (s : State) : (pinRelease p s).elapsed = s.elapsed := rfl
@[simp] theorem pinRelease_board (p : PinId) (s : State) : (pinRelease p s).board = s.board := rfl
@[simp] theorem pinRelease_agenda (p : PinId) (s : State) : (pinRelease p s).agenda = s.agenda := rfl
@[simp] theorem pinRelease_answers (p : PinId) (s : State) : (pinRelease p s).answers = s.answers := rfl
@[simp] theorem pinRelease_draws (p : PinId) (s : State) : (pinRelease p s).draws = s.draws := rfl
@[simp] theorem pinRelease_trace (p : PinId) (s : State) : (pinRelease p s).trace = s.trace ++ [.rel p] := rfl
@[simp] theorem pinRelease_port (p : PinId) (s : State) (q : PortId) : (pinRelease p s).port q = s.port q := by cases q <;> rfl
theorem pinRelease_pin (p : PinId) (s : State) (q : PinId) :
    (pinRelease p s).pin q = if q = p then { s.pin p with owner := .free } else s.pin q := writePin_pin s p q _
theorem pinRelease_wf (p : PinId) (s : State) (h : Memory.wf s.pins = true) : Memory.wf (pinRelease p s).pins = true :=
  Memory.wf_write _ _ h

@[simp] theorem pinDirIn_main (p : PinId) (s : State) : (pinDirIn p s).main = s.main := rfl
@[simp] theorem pinDirIn_aux (p : PinId) (s : State) : (pinDirIn p s).aux = s.aux := rfl
@[simp] theorem pinDirIn_mode (p : PinId) (s : State) : (pinDirIn p s).mode = s.mode := rfl
@[simp] theorem pinDirIn_pend (p : PinId) (s : State) : (pinDirIn p s).pend = s.pend := rfl
@[simp] theorem pinDirIn_handle (p : PinId) (s : State) : (pinDirIn p s).handle = s.handle := rfl
@[simp] theorem pinDirIn_pwr (p : PinId) (s : State) : (pinDirIn p s).pwr = s.pwr := rfl
@[simp] theorem pinDirIn_seq (p : PinId) (s : State) : (pinDirIn p s).seq = s.seq := rfl
@[simp] theorem pinDirIn_boot (p : PinId) (s : State) : (pinDirIn p s).boot = s.boot := rfl
@[simp] theorem pinDirIn_cfgMainPin (p : PinId) (s : State) : (pinDirIn p s).cfgMainPin = s.cfgMainPin := rfl
@[simp] theorem pinDirIn_cfgAuxPin (p : PinId) (s : State) : (pinDirIn p s).cfgAuxPin = s.cfgAuxPin := rfl
@[simp] theorem pinDirIn_cfgMode (p : PinId) (s : State) : (pinDirIn p s).cfgMode = s.cfgMode := rfl
@[simp] theorem pinDirIn_cfgCap (p : PinId) (s : State) : (pinDirIn p s).cfgCap = s.cfgCap := rfl
@[simp] theorem pinDirIn_cc (p : PinId) (s : State) : (pinDirIn p s).cc = s.cc := rfl
@[simp] theorem pinDirIn_bt (p : PinId) (s : State) : (pinDirIn p s).bt = s.bt := rfl
@[simp] theorem pinDirIn_pm (p : PinId) (s : State) : (pinDirIn p s).pm = s.pm := rfl
@[simp] theorem pinDirIn_teardown (p : PinId) (s : State) : (pinDirIn p s).teardown = s.teardown := rfl
@[simp] theorem pinDirIn_elapsed (p : PinId) (s : State) : (pinDirIn p s).elapsed = s.elapsed := rfl
@[simp] theorem pinDirIn_board (p : PinId) (s : State) : (pinDirIn p s).board = s.board := rfl
@[simp] theorem pinDirIn_agenda (p : PinId) (s : State) : (pinDirIn p s).agenda = s.agenda := rfl
@[simp] theorem pinDirIn_answers (p : PinId) (s : State) : (pinDirIn p s).answers = s.answers := rfl
@[simp] theorem pinDirIn_draws (p : PinId) (s : State) : (pinDirIn p s).draws = s.draws := rfl
@[simp] theorem pinDirIn_trace (p : PinId) (s : State) : (pinDirIn p s).trace = s.trace ++ [.dirIn p] := rfl
@[simp] theorem pinDirIn_port (p : PinId) (s : State) (q : PortId) : (pinDirIn p s).port q = s.port q := by cases q <;> rfl
theorem pinDirIn_pin (p : PinId) (s : State) (q : PinId) :
    (pinDirIn p s).pin q = if q = p then { s.pin p with dir := .input } else s.pin q := writePin_pin s p q _
theorem pinDirIn_wf (p : PinId) (s : State) (h : Memory.wf s.pins = true) : Memory.wf (pinDirIn p s).pins = true :=
  Memory.wf_write _ _ h

@[simp] theorem pinDirOut_main (p : PinId) (v : Bit) (s : State) : (pinDirOut p v s).main = s.main := rfl
@[simp] theorem pinDirOut_aux (p : PinId) (v : Bit) (s : State) : (pinDirOut p v s).aux = s.aux := rfl
@[simp] theorem pinDirOut_mode (p : PinId) (v : Bit) (s : State) : (pinDirOut p v s).mode = s.mode := rfl
@[simp] theorem pinDirOut_pend (p : PinId) (v : Bit) (s : State) : (pinDirOut p v s).pend = s.pend := rfl
@[simp] theorem pinDirOut_handle (p : PinId) (v : Bit) (s : State) : (pinDirOut p v s).handle = s.handle := rfl
@[simp] theorem pinDirOut_pwr (p : PinId) (v : Bit) (s : State) : (pinDirOut p v s).pwr = s.pwr := rfl
@[simp] theorem pinDirOut_seq (p : PinId) (v : Bit) (s : State) : (pinDirOut p v s).seq = s.seq := rfl
@[simp] theorem pinDirOut_boot (p : PinId) (v : Bit) (s : State) : (pinDirOut p v s).boot = s.boot := rfl
@[simp] theorem pinDirOut_cfgMainPin (p : PinId) (v : Bit) (s : State) : (pinDirOut p v s).cfgMainPin = s.cfgMainPin := rfl
@[simp] theorem pinDirOut_cfgAuxPin (p : PinId) (v : Bit) (s : State) : (pinDirOut p v s).cfgAuxPin = s.cfgAuxPin := rfl
@[simp] theorem pinDirOut_cfgMode (p : PinId) (v : Bit) (s : State) : (pinDirOut p v s).cfgMode = s.cfgMode := rfl
@[simp] theorem pinDirOut_cfgCap (p : PinId) (v : Bit) (s : State) : (pinDirOut p v s).cfgCap = s.cfgCap := rfl
@[simp] theorem pinDirOut_cc (p : PinId) (v : Bit) (s : State) : (pinDirOut p v s).cc = s.cc := rfl
@[simp] theorem pinDirOut_bt (p : PinId) (v : Bit) (s : State) : (pinDirOut p v s).bt = s.bt := rfl
@[simp] theorem pinDirOut_pm (p : PinId) (v : Bit) (s : State) : (pinDirOut p v s).pm = s.pm := rfl
@[simp] theorem pinDirOut_teardown (p : PinId) (v : Bit) (s : State) : (pinDirOut p v s).teardown = s.teardown := rfl
@[simp] theorem pinDirOut_elapsed (p : PinId) (v : Bit) (s : State) : (pinDirOut p v s).elapsed = s.elapsed := rfl
@[simp] theorem pinDirOut_board (p : PinId) (v : Bit) (s : State) : (pinDirOut p v s).board = s.board := rfl
@[simp] theorem pinDirOut_agenda (p : PinId) (v : Bit) (s : State) : (pinDirOut p v s).agenda = s.agenda := rfl
@[simp] theorem pinDirOut_answers (p : PinId) (v : Bit) (s : State) : (pinDirOut p v s).answers = s.answers := rfl
@[simp] theorem pinDirOut_draws (p : PinId) (v : Bit) (s : State) : (pinDirOut p v s).draws = s.draws := rfl
@[simp] theorem pinDirOut_trace (p : PinId) (v : Bit) (s : State) : (pinDirOut p v s).trace = s.trace ++ [.dirOut p v] := rfl
@[simp] theorem pinDirOut_port (p : PinId) (v : Bit) (s : State) (q : PortId) : (pinDirOut p v s).port q = s.port q := by cases q <;> rfl
theorem pinDirOut_pin (p : PinId) (v : Bit) (s : State) (q : PinId) :
    (pinDirOut p v s).pin q = if q = p then { s.pin p with dir := .output, out := v } else s.pin q := writePin_pin s p q _
theorem pinDirOut_wf (p : PinId) (v : Bit) (s : State) (h : Memory.wf s.pins = true) : Memory.wf (pinDirOut p v s).pins = true :=
  Memory.wf_write _ _ h

@[simp] theorem pinSet_main (p : PinId) (v : Bit) (s : State) : (pinSet p v s).main = s.main := rfl
@[simp] theorem pinSet_aux (p : PinId) (v : Bit) (s : State) : (pinSet p v s).aux = s.aux := rfl
@[simp] theorem pinSet_mode (p : PinId) (v : Bit) (s : State) : (pinSet p v s).mode = s.mode := rfl
@[simp] theorem pinSet_pend (p : PinId) (v : Bit) (s : State) : (pinSet p v s).pend = s.pend := rfl
@[simp] theorem pinSet_handle (p : PinId) (v : Bit) (s : State) : (pinSet p v s).handle = s.handle := rfl
@[simp] theorem pinSet_pwr (p : PinId) (v : Bit) (s : State) : (pinSet p v s).pwr = s.pwr := rfl
@[simp] theorem pinSet_seq (p : PinId) (v : Bit) (s : State) : (pinSet p v s).seq = s.seq := rfl
@[simp] theorem pinSet_boot (p : PinId) (v : Bit) (s : State) : (pinSet p v s).boot = s.boot := rfl
@[simp] theorem pinSet_cfgMainPin (p : PinId) (v : Bit) (s : State) : (pinSet p v s).cfgMainPin = s.cfgMainPin := rfl
@[simp] theorem pinSet_cfgAuxPin (p : PinId) (v : Bit) (s : State) : (pinSet p v s).cfgAuxPin = s.cfgAuxPin := rfl
@[simp] theorem pinSet_cfgMode (p : PinId) (v : Bit) (s : State) : (pinSet p v s).cfgMode = s.cfgMode := rfl
@[simp] theorem pinSet_cfgCap (p : PinId) (v : Bit) (s : State) : (pinSet p v s).cfgCap = s.cfgCap := rfl
@[simp] theorem pinSet_cc (p : PinId) (v : Bit) (s : State) : (pinSet p v s).cc = s.cc := rfl
@[simp] theorem pinSet_bt (p : PinId) (v : Bit) (s : State) : (pinSet p v s).bt = s.bt := rfl
@[simp] theorem pinSet_pm (p : PinId) (v : Bit) (s : State) : (pinSet p v s).pm = s.pm := rfl
@[simp] theorem pinSet_teardown (p : PinId) (v : Bit) (s : State) : (pinSet p v s).teardown = s.teardown := rfl
@[simp] theorem pinSet_elapsed (p : PinId) (v : Bit) (s : State) : (pinSet p v s).elapsed = s.elapsed := rfl
@[simp] theorem pinSet_board (p : PinId) (v : Bit) (s : State) : (pinSet p v s).board = s.board := rfl
@[simp] theorem pinSet_agenda (p : PinId) (v : Bit) (s : State) : (pinSet p v s).agenda = s.agenda := rfl
@[simp] theorem pinSet_answers (p : PinId) (v : Bit) (s : State) : (pinSet p v s).answers = s.answers := rfl
@[simp] theorem pinSet_draws (p : PinId) (v : Bit) (s : State) : (pinSet p v s).draws = s.draws := rfl
@[simp] theorem pinSet_trace (p : PinId) (v : Bit) (s : State) : (pinSet p v s).trace = s.trace ++ [.set p v] := rfl
@[simp] theorem pinSet_port (p : PinId) (v : Bit) (s : State) (q : PortId) : (pinSet p v s).port q = s.port q := by cases q <;> rfl
theorem pinSet_pin (p : PinId) (v : Bit) (s : State) (q : PinId) :
    (pinSet p v s).pin q = if q = p then { s.pin p with out := v } else s.pin q := writePin_pin s p q _
theorem pinSet_wf (p : PinId) (v : Bit) (s : State) (h : Memory.wf s.pins = true) : Memory.wf (pinSet p v s).pins = true :=
  Memory.wf_write _ _ h

@[simp] theorem capSet_main (v : Bit) (s : State) : (capSet v s).main = s.main := rfl
@[simp] theorem capSet_aux (v : Bit) (s : State) : (capSet v s).aux = s.aux := rfl
@[simp] theorem capSet_mode (v : Bit) (s : State) : (capSet v s).mode = s.mode := rfl
@[simp] theorem capSet_pend (v : Bit) (s : State) : (capSet v s).pend = s.pend := rfl
@[simp] theorem capSet_handle (v : Bit) (s : State) : (capSet v s).handle = s.handle := rfl
@[simp] theorem capSet_seq (v : Bit) (s : State) : (capSet v s).seq = s.seq := rfl
@[simp] theorem capSet_boot (v : Bit) (s : State) : (capSet v s).boot = s.boot := rfl
@[simp] theorem capSet_cfgMainPin (v : Bit) (s : State) : (capSet v s).cfgMainPin = s.cfgMainPin := rfl
@[simp] theorem capSet_cfgAuxPin (v : Bit) (s : State) : (capSet v s).cfgAuxPin = s.cfgAuxPin := rfl
@[simp] theorem capSet_cfgMode (v : Bit) (s : State) : (capSet v s).cfgMode = s.cfgMode := rfl
@[simp] theorem capSet_cfgCap (v : Bit) (s : State) : (capSet v s).cfgCap = s.cfgCap := rfl
@[simp] theorem capSet_pins (v : Bit) (s : State) : (capSet v s).pins = s.pins := rfl
@[simp] theorem capSet_cc (v : Bit) (s : State) : (capSet v s).cc = s.cc := rfl
@[simp] theorem capSet_bt (v : Bit) (s : State) : (capSet v s).bt = s.bt := rfl
@[simp] theorem capSet_pm (v : Bit) (s : State) : (capSet v s).pm = s.pm := rfl
@[simp] theorem capSet_teardown (v : Bit) (s : State) : (capSet v s).teardown = s.teardown := rfl
@[simp] theorem capSet_elapsed (v : Bit) (s : State) : (capSet v s).elapsed = s.elapsed := rfl
@[simp] theorem capSet_board (v : Bit) (s : State) : (capSet v s).board = s.board := rfl
@[simp] theorem capSet_agenda (v : Bit) (s : State) : (capSet v s).agenda = s.agenda := rfl
@[simp] theorem capSet_answers (v : Bit) (s : State) : (capSet v s).answers = s.answers := rfl
@[simp] theorem capSet_draws (v : Bit) (s : State) : (capSet v s).draws = s.draws := rfl
@[simp] theorem capSet_pwr (v : Bit) (s : State) : (capSet v s).pwr = v := rfl
@[simp] theorem capSet_trace (v : Bit) (s : State) : (capSet v s).trace = s.trace ++ [.cap v] := rfl
@[simp] theorem capSet_pin (v : Bit) (s : State) (q : PinId) : (capSet v s).pin q = s.pin q := rfl
@[simp] theorem capSet_port (v : Bit) (s : State) (q : PortId) : (capSet v s).port q = s.port q := by cases q <;> rfl

/-- A free pin is acquired (R54). -/
theorem pinAcquire_free {p : PinId} {s : State} (h : (s.pin p).owner = .free) :
    pinAcquire p s = (true, (s.writePin p { s.pin p with owner := .self }).emit (.acq p true)) := if_pos h

/-- A pin that is not free is not (R54). -/
theorem pinAcquire_taken {p : PinId} {s : State} (h : (s.pin p).owner ≠ .free) :
    pinAcquire p s = (false, s.emit (.acq p false)) := if_neg h

/-- `PinGet` where the line model determines the level (R59, R64). -/
theorem pinGet_known {p : PinId} {s : State} {v : Bit} (h : lineLevel s p = some v) :
    pinGet p s = (v, s.emit (.get p v)) := by simp [pinGet, h]

/-- `PinGet` where it does not: a free value, and the next one is fresh (R64). -/
theorem pinGet_draw {p : PinId} {s : State} (h : lineLevel s p = none) :
    pinGet p s = (Config.lineDraw s.draws,
      { s with draws := s.draws + 1 }.emit (.get p (Config.lineDraw s.draws))) := by simp [pinGet, h]

/-- The engine's answer when State lists it (R66). -/
theorem engRegister_listed {desc : BitVec 3} {s : State} {a : EngAnswer} {more : List EngAnswer}
    (h : s.answers = a :: more) : engRegister desc s = (a, { s with answers := more }.emit (.reg desc a)) := by
  simp [engRegister, nextAnswer, h]

/-- Registration asks the engine and takes one answer or one free value, nothing else (R66). -/
theorem engRegister_cases (desc : BitVec 3) (s : State) :
    ∃ l n, (engRegister desc s).2 = { s with answers := l, draws := n }.emit (.reg desc (engRegister desc s).1) := by
  unfold engRegister nextAnswer
  cases h : s.answers with
  | nil => exact ⟨s.answers, s.draws + 1, by simp [h]⟩
  | cons a more => exact ⟨more, s.draws, rfl⟩

/-- Deregistration is one event (R67). -/
theorem engDeregister_some {s : State} {h : Handle} (hh : s.handle = some h) : engDeregister s = s.emit (.dereg h) := by
  simp [engDeregister, hh]

/-- With no handle held nothing happens (notes/assumptions/11). -/
theorem engDeregister_none {s : State} (hh : s.handle = none) : engDeregister s = s := by
  simp [engDeregister, hh]

end Sys2Proof.Machine
end

