-- ==== Sys2Proof/Laws/Lifecycle.lean ====
section
/-! SUPPORT. HW_INIT and HW_EXIT, said once: the equation of each of their outcomes, and what each leaves in every register
and every pin. -/

namespace Sys2Proof.Machine

/-- NONE is never a legal pin (R52). -/
theorem pinValid_ne_noPin {s : State} {p : PinId} (h : pinValid s p = true) : p ≠ noPin := by
  rintro rfl
  simp only [pinValid, BitVec.ult, noPin] at h
  have := s.board.npins.isLt
  simp at h
  omega

/-- `pin_valid` depends on the board only (R52). -/
theorem pinValid_congr {s t : State} (h : t.board = s.board) (p : PinId) : pinValid t p = pinValid s p := by
  simp only [pinValid, h]

/-- The aux operand as it counts depends on the board only. -/
theorem auxOperand_congr {s t : State} (h : t.board = s.board) (a : PinId) : auxOperand t a = auxOperand s a := by
  simp only [auxOperand, pinValid_congr h]

/-- The aux operand as it counts is the operand itself and legal, if it is there at all (R143). -/
theorem auxOperand_of_ne {s : State} {a : PinId} (h : auxOperand s a ≠ noPin) :
    auxOperand s a = a ∧ pinValid s a = true := by
  unfold auxOperand at *
  split at h
  · next hc => exact ⟨if_pos hc, hc.2⟩
  · exact absurd rfl h

/-- The state with one pin just acquired. -/
def acquired (p : PinId) (s : State) : State := (s.writePin p { s.pin p with owner := .self }).emit (.acq p true)

theorem acquired_pin (p : PinId) (s : State) (q : PinId) :
    (acquired p s).pin q = if q = p then { s.pin p with owner := .self } else s.pin q := writePin_pin s p q _

theorem acquired_wf (p : PinId) (s : State) (h : Memory.wf s.pins = true) : Memory.wf (acquired p s).pins = true :=
  Memory.wf_write _ _ h

theorem configureMain_pin (p : PinId) (m : Mode) (s : State) (q : PinId) :
    (configureMain p m s).pin q = if q = p then
      (match m with | .drv => { s.pin p with dir := .output, out := 1 } | .od => { s.pin p with dir := .input })
      else s.pin q := by
  cases m
  · exact pinDirIn_pin p s q
  · exact pinDirOut_pin p 1 s q

theorem configureMain_wf (p : PinId) (m : Mode) (s : State) (h : Memory.wf s.pins = true) :
    Memory.wf (configureMain p m s).pins = true := by
  cases m <;> exact Memory.wf_write _ _ h

/-- HW_INIT step 1, AlreadyBound (R141). -/
theorem hwInit_alreadyBound {p a : PinId} {m : Mode} {s : State} (h : s.main ≠ noPin) :
    hwInit p a m s = (.alreadyBound, s) := by simp [hwInit, failWith, rollback, h]

/-- HW_INIT step 1, InvalidPin (R141). -/
theorem hwInit_invalidPin {p a : PinId} {m : Mode} {s : State} (h : s.main = noPin) (hv : pinValid s p = false) :
    hwInit p a m s = (.invalidPin, s) := by simp [hwInit, failWith, rollback, h, hv]

/-- HW_INIT step 2, the main pin is not free (R142). -/
theorem hwInit_mainTaken {p a : PinId} {m : Mode} {s : State} (h : s.main = noPin) (hv : pinValid s p = true)
    (ho : (s.pin p).owner ≠ .free) : hwInit p a m s = (.resourceUnavailable, s.emit (.acq p false)) := by
  simp [hwInit, failWith, rollback, h, hv, pinAcquire_taken ho]

/-- HW_INIT step 2, the main pin is acquired (R142). -/
theorem hwInit_mainAcquired {p a : PinId} {m : Mode} {s : State} (h : s.main = noPin) (hv : pinValid s p = true)
    (ho : (s.pin p).owner = .free) : hwInit p a m s = hwInitAux p (auxOperand s a) m (acquired p s) := by
  simp only [hwInit, h, hv, pinAcquire_free ho, ne_eq, not_true_eq_false, if_false, Bool.true_eq_false, if_true,
    acquired]

/-- HW_INIT step 3, no aux pin (R143). -/
theorem hwInitAux_none {p : PinId} {m : Mode} {s : State} :
    hwInitAux p noPin m s = hwInitRegister p noPin m (configureMain p m s) := by simp [hwInitAux]

/-- HW_INIT step 3, the aux pin is not free: the main pin goes back (R143). -/
theorem hwInitAux_taken {p x : PinId} {m : Mode} {s : State} (hx : x ≠ noPin) (ho : (s.pin x).owner ≠ .free) :
    hwInitAux p x m s = (.resourceUnavailable, pinRelease p (s.emit (.acq x false))) := by
  simp [hwInitAux, hx, pinAcquire_taken ho, failWith, rollback]

/-- HW_INIT step 3, the aux pin is acquired and set low (R143). -/
theorem hwInitAux_acquired {p x : PinId} {m : Mode} {s : State} (hx : x ≠ noPin) (ho : (s.pin x).owner = .free) :
    hwInitAux p x m s = hwInitRegister p x m (configureMain p m (pinDirOut x 0 (acquired x s))) := by
  simp [hwInitAux, hx, pinAcquire_free ho, acquired]

/-- HW_INIT step 5, the engine refuses (R145). -/
theorem hwInitRegister_error {p x : PinId} {m : Mode} {s : State} (h : (engRegister (descriptorOf m) s).1 = .error) :
    hwInitRegister p x m s =
      (.registrationFailed, rollback (acquiredPins p x) (engRegister (descriptorOf m) s).2) := by
  simp [hwInitRegister, h, failWith]

/-- HW_INIT steps 5 and 6, the engine accepts (R145, R146). -/
theorem hwInitRegister_ok {p x : PinId} {m : Mode} {s : State} {h : Handle}
    (hr : (engRegister (descriptorOf m) s).1 = .ok h) :
    hwInitRegister p x m s = (.ok, hwInitPower (commitBinding p x m h (engRegister (descriptorOf m) s).2)) := by
  simp [hwInitRegister, hr]

/-! What cutting and enabling pull-up power leave (R146, R147). -/

@[simp] theorem hwInitPower_main (s : State) : (hwInitPower s).main = s.main := by
  unfold hwInitPower; dsimp only; split <;> split <;> rfl
@[simp] theorem hwInitPower_aux (s : State) : (hwInitPower s).aux = s.aux := by
  unfold hwInitPower; dsimp only; split <;> split <;> rfl
@[simp] theorem hwInitPower_mode (s : State) : (hwInitPower s).mode = s.mode := by
  unfold hwInitPower; dsimp only; split <;> split <;> rfl
@[simp] theorem hwInitPower_pend (s : State) : (hwInitPower s).pend = s.pend := by
  unfold hwInitPower; dsimp only; split <;> split <;> rfl
@[simp] theorem hwInitPower_handle (s : State) : (hwInitPower s).handle = s.handle := by
  unfold hwInitPower; dsimp only; split <;> split <;> rfl
@[simp] theorem hwInitPower_seq (s : State) : (hwInitPower s).seq = s.seq := by
  unfold hwInitPower; dsimp only; split <;> split <;> rfl
@[simp] theorem hwInitPower_boot (s : State) : (hwInitPower s).boot = s.boot := by
  unfold hwInitPower; dsimp only; split <;> split <;> rfl
@[simp] theorem hwInitPower_cfgMainPin (s : State) : (hwInitPower s).cfgMainPin = s.cfgMainPin := by
  unfold hwInitPower; dsimp only; split <;> split <;> rfl
@[simp] theorem hwInitPower_cfgAuxPin (s : State) : (hwInitPower s).cfgAuxPin = s.cfgAuxPin := by
  unfold hwInitPower; dsimp only; split <;> split <;> rfl
@[simp] theorem hwInitPower_cfgMode (s : State) : (hwInitPower s).cfgMode = s.cfgMode := by
  unfold hwInitPower; dsimp only; split <;> split <;> rfl
@[simp] theorem hwInitPower_cfgCap (s : State) : (hwInitPower s).cfgCap = s.cfgCap := by
  unfold hwInitPower; dsimp only; split <;> split <;> rfl
@[simp] theorem hwInitPower_cc (s : State) : (hwInitPower s).cc = s.cc := by
  unfold hwInitPower; dsimp only; split <;> split <;> rfl
@[simp] theorem hwInitPower_bt (s : State) : (hwInitPower s).bt = s.bt := by
  unfold hwInitPower; dsimp only; split <;> split <;> rfl
@[simp] theorem hwInitPower_pm (s : State) : (hwInitPower s).pm = s.pm := by
  unfold hwInitPower; dsimp only; split <;> split <;> rfl
@[simp] theorem hwInitPower_teardown (s : State) : (hwInitPower s).teardown = s.teardown := by
  unfold hwInitPower; dsimp only; split <;> split <;> rfl
@[simp] theorem hwInitPower_elapsed (s : State) : (hwInitPower s).elapsed = s.elapsed := by
  unfold hwInitPower; dsimp only; split <;> split <;> rfl
@[simp] theorem hwInitPower_board (s : State) : (hwInitPower s).board = s.board := by
  unfold hwInitPower; dsimp only; split <;> split <;> rfl
@[simp] theorem hwInitPower_agenda (s : State) : (hwInitPower s).agenda = s.agenda := by
  unfold hwInitPower; dsimp only; split <;> split <;> rfl
@[simp] theorem hwInitPower_answers (s : State) : (hwInitPower s).answers = s.answers := by
  unfold hwInitPower; dsimp only; split <;> split <;> rfl
@[simp] theorem hwInitPower_draws (s : State) : (hwInitPower s).draws = s.draws := by
  unfold hwInitPower; dsimp only; split <;> split <;> rfl
@[simp] theorem hwInitPower_pwr (s : State) : (hwInitPower s).pwr = if s.cfgCap = true then 1 else s.pwr := by
  unfold hwInitPower; dsimp only; split <;> split <;> simp_all
@[simp] theorem hwInitPower_port (s : State) (q : PortId) : (hwInitPower s).port q = s.port q := by
  unfold hwInitPower; dsimp only; split <;> split <;> simp
theorem hwInitPower_pin (s : State) (q : PinId) : (hwInitPower s).pin q =
    if s.aux ≠ noPin ∧ q = s.aux then { s.pin s.aux with out := 1 } else s.pin q := by
  unfold hwInitPower; dsimp only; split <;> split <;> simp_all [pinSet_pin]
theorem hwInitPower_trace (s : State) : (hwInitPower s).trace =
    s.trace ++ (eventsIf s.cfgCap [.cap 1] ++ eventsIf (s.aux ≠ noPin) [.set s.aux 1]) := by
  unfold hwInitPower; dsimp only; split <;> split <;> simp_all [eventsIf]
theorem hwInitPower_wf (s : State) (h : Memory.wf s.pins = true) : Memory.wf (hwInitPower s).pins = true := by
  unfold hwInitPower; dsimp only
  split <;> split <;> first | exact h | exact Memory.wf_write _ _ h

@[simp] theorem hwExitPower_main (s : State) : (hwExitPower s).main = s.main := by
  unfold hwExitPower; dsimp only; split <;> split <;> rfl
@[simp] theorem hwExitPower_aux (s : State) : (hwExitPower s).aux = s.aux := by
  unfold hwExitPower; dsimp only; split <;> split <;> rfl
@[simp] theorem hwExitPower_mode (s : State) : (hwExitPower s).mode = s.mode := by
  unfold hwExitPower; dsimp only; split <;> split <;> rfl
@[simp] theorem hwExitPower_pend (s : State) : (hwExitPower s).pend = s.pend := by
  unfold hwExitPower; dsimp only; split <;> split <;> rfl
@[simp] theorem hwExitPower_handle (s : State) : (hwExitPower s).handle = s.handle := by
  unfold hwExitPower; dsimp only; split <;> split <;> rfl
@[simp] theorem hwExitPower_seq (s : State) : (hwExitPower s).seq = s.seq := by
  unfold hwExitPower; dsimp only; split <;> split <;> rfl
@[simp] theorem hwExitPower_boot (s : State) : (hwExitPower s).boot = s.boot := by
  unfold hwExitPower; dsimp only; split <;> split <;> rfl
@[simp] theorem hwExitPower_cfgMainPin (s : State) : (hwExitPower s).cfgMainPin = s.cfgMainPin := by
  unfold hwExitPower; dsimp only; split <;> split <;> rfl
@[simp] theorem hwExitPower_cfgAuxPin (s : State) : (hwExitPower s).cfgAuxPin = s.cfgAuxPin := by
  unfold hwExitPower; dsimp only; split <;> split <;> rfl
@[simp] theorem hwExitPower_cfgMode (s : State) : (hwExitPower s).cfgMode = s.cfgMode := by
  unfold hwExitPower; dsimp only; split <;> split <;> rfl
@[simp] theorem hwExitPower_cfgCap (s : State) : (hwExitPower s).cfgCap = s.cfgCap := by
  unfold hwExitPower; dsimp only; split <;> split <;> rfl
@[simp] theorem hwExitPower_cc (s : State) : (hwExitPower s).cc = s.cc := by
  unfold hwExitPower; dsimp only; split <;> split <;> rfl
@[simp] theorem hwExitPower_bt (s : State) : (hwExitPower s).bt = s.bt := by
  unfold hwExitPower; dsimp only; split <;> split <;> rfl
@[simp] theorem hwExitPower_pm (s : State) : (hwExitPower s).pm = s.pm := by
  unfold hwExitPower; dsimp only; split <;> split <;> rfl
@[simp] theorem hwExitPower_teardown (s : State) : (hwExitPower s).teardown = s.teardown := by
  unfold hwExitPower; dsimp only; split <;> split <;> rfl
@[simp] theorem hwExitPower_elapsed (s : State) : (hwExitPower s).elapsed = s.elapsed := by
  unfold hwExitPower; dsimp only; split <;> split <;> rfl
@[simp] theorem hwExitPower_board (s : State) : (hwExitPower s).board = s.board := by
  unfold hwExitPower; dsimp only; split <;> split <;> rfl
@[simp] theorem hwExitPower_agenda (s : State) : (hwExitPower s).agenda = s.agenda := by
  unfold hwExitPower; dsimp only; split <;> split <;> rfl
@[simp] theorem hwExitPower_answers (s : State) : (hwExitPower s).answers = s.answers := by
  unfold hwExitPower; dsimp only; split <;> split <;> rfl
@[simp] theorem hwExitPower_draws (s : State) : (hwExitPower s).draws = s.draws := by
  unfold hwExitPower; dsimp only; split <;> split <;> rfl
@[simp] theorem hwExitPower_pwr (s : State) : (hwExitPower s).pwr = if s.cfgCap = true then 0 else s.pwr := by
  unfold hwExitPower; dsimp only; split <;> split <;> simp_all
@[simp] theorem hwExitPower_port (s : State) (q : PortId) : (hwExitPower s).port q = s.port q := by
  unfold hwExitPower; dsimp only; split <;> split <;> simp
theorem hwExitPower_pin (s : State) (q : PinId) : (hwExitPower s).pin q =
    if s.aux ≠ noPin ∧ q = s.aux then { s.pin s.aux with out := 0 } else s.pin q := by
  unfold hwExitPower; dsimp only; split <;> split <;> simp_all [pinSet_pin]
theorem hwExitPower_trace (s : State) : (hwExitPower s).trace =
    s.trace ++ (eventsIf s.cfgCap [.cap 0] ++ eventsIf (s.aux ≠ noPin) [.set s.aux 0]) := by
  unfold hwExitPower; dsimp only; split <;> split <;> simp_all [eventsIf]
theorem hwExitPower_wf (s : State) (h : Memory.wf s.pins = true) : Memory.wf (hwExitPower s).pins = true := by
  unfold hwExitPower; dsimp only
  split <;> split <;> first | exact h | exact Memory.wf_write _ _ h

/-- What an error of HW_INIT leaves: every register, and every pin's owner and line; direction and level may differ on
the operands only (R151, R202). -/
structure RolledBack (p x : PinId) (s t : State) : Prop where
  binding : keepsBinding s t
  hold : keepsHold s t
  pwr : t.pwr = s.pwr
  straps : keepsStraps s t
  ports : ∀ q, t.port q = s.port q
  teardown : t.teardown = s.teardown
  agenda : t.agenda = s.agenda
  owner : ∀ q, (t.pin q).owner = (s.pin q).owner
  extLow : ∀ q, (t.pin q).extLow = (s.pin q).extLow
  others : ∀ q, q ≠ p → (x = noPin ∨ q ≠ x) → t.pin q = s.pin q
  table : Memory.wf s.pins = true → Memory.wf t.pins = true
  grown : s.trace <+: t.trace

/-- The level a mode's idle main pin is configured to, as a row (R144). -/
def configuredRow (m : Mode) (v : Pin) : Pin :=
  match m with
  | .drv => { v with dir := .output, out := 1 }
  | .od => { v with dir := .input }

/-- What a successful HW_INIT found and leaves; `x` is the aux operand as it counts (R140 to R146). -/
structure Bound (p x : PinId) (m : Mode) (s t : State) : Prop where
  wasUnbound : s.main = noPin
  valid : pinValid s p = true
  mainFree : (s.pin p).owner = .free
  auxFree : x ≠ noPin → x ≠ p ∧ (s.pin x).owner = .free
  main : t.main = p
  aux : t.aux = x
  mode : t.mode = m
  handle : t.handle ≠ none
  pwr : t.pwr = if s.cfgCap = true then 1 else s.pwr
  hold : keepsHold s t
  straps : keepsStraps s t
  ports : ∀ q, t.port q = s.port q
  teardown : t.teardown = s.teardown
  agenda : t.agenda = s.agenda
  mainPin : t.pin p = { configuredRow m (s.pin p) with owner := .self }
  auxPin : x ≠ noPin → t.pin x = { s.pin x with owner := .self, dir := .output, out := 1 }
  others : ∀ q, q ≠ p → (x = noPin ∨ q ≠ x) → t.pin q = s.pin q
  table : Memory.wf s.pins = true → Memory.wf t.pins = true
  grown : s.trace <+: t.trace

/-- An unfinished HW_INIT that wrote no register: what it has acquired is given back by what follows. -/
theorem RolledBack.refl (p x : PinId) (s : State) : RolledBack p x s s :=
  ⟨⟨rfl, rfl, rfl, rfl⟩, ⟨rfl, rfl, rfl⟩, rfl, ⟨rfl, rfl, rfl, rfl, rfl, rfl⟩, fun _ => rfl, rfl, rfl, fun _ => rfl,
    fun _ => rfl, fun _ _ _ => rfl, id, List.prefix_rfl⟩

theorem RolledBack.emit (p x : PinId) (s : State) (e : Event) : RolledBack p x s (s.emit e) :=
  { RolledBack.refl p x s with ports := fun _ => emit_port _ _ _, grown := List.prefix_append _ _ }

/-- The outcomes of HW_INIT steps 5 and 6, from a state `t` in which the pins are acquired and configured. -/
theorem hwInitRegister_cases (p x : PinId) (m : Mode) (t : State) :
    (∃ a l n, hwInitRegister p x m t = (.registrationFailed,
      rollback (acquiredPins p x) ({ t with answers := l, draws := n }.emit (.reg (descriptorOf m) a)))) ∨
    ∃ h a l n, hwInitRegister p x m t = (.ok,
      hwInitPower (commitBinding p x m h ({ t with answers := l, draws := n }.emit (.reg (descriptorOf m) a)))) := by
  obtain ⟨l, n, hr⟩ := engRegister_cases (descriptorOf m) t
  cases h : (engRegister (descriptorOf m) t).1 with
  | error => exact .inl ⟨_, l, n, by rw [hwInitRegister_error h, hr]⟩
  | ok k => exact .inr ⟨k, _, l, n, by rw [hwInitRegister_ok h, hr]⟩

/-- A pin's row depends on the pin table only. -/
theorem pin_congr {s t : State} (h : t.pins = s.pins) (q : PinId) : t.pin q = s.pin q := by
  simp only [State.pin, h]

/-- Everything but pins, trace, answers and free values is as it was. -/
structure SameRegisters (s t : State) : Prop where
  binding : keepsBinding s t
  hold : keepsHold s t
  pwr : t.pwr = s.pwr
  straps : keepsStraps s t
  ports : ∀ q, t.port q = s.port q
  teardown : t.teardown = s.teardown
  agenda : t.agenda = s.agenda
  grown : s.trace <+: t.trace

theorem SameRegisters.refl (s : State) : SameRegisters s s :=
  ⟨⟨rfl, rfl, rfl, rfl⟩, ⟨rfl, rfl, rfl⟩, rfl, ⟨rfl, rfl, rfl, rfl, rfl, rfl⟩, fun _ => rfl, rfl, rfl,
    List.prefix_rfl⟩

theorem SameRegisters.trans {s t u : State} (h : SameRegisters s t) (k : SameRegisters t u) : SameRegisters s u where
  binding := by have := h.binding; have := k.binding; simp_all [keepsBinding]
  hold := by have := h.hold; have := k.hold; simp_all [keepsHold]
  pwr := k.pwr.trans h.pwr
  straps := by have := h.straps; have := k.straps; simp_all [keepsStraps]
  ports := fun q => (k.ports q).trans (h.ports q)
  teardown := k.teardown.trans h.teardown
  agenda := k.agenda.trans h.agenda
  grown := h.grown.trans k.grown

theorem SameRegisters.emit (s : State) (e : Event) : SameRegisters s (s.emit e) :=
  { SameRegisters.refl s with ports := fun _ => emit_port _ _ _, grown := List.prefix_append _ _ }

theorem SameRegisters.writePin (s : State) (p : PinId) (v : Pin) : SameRegisters s (s.writePin p v) :=
  { SameRegisters.refl s with ports := fun _ => writePin_port _ _ _ _ }

theorem SameRegisters.answers (s : State) (l : List EngAnswer) (n : Nat) :
    SameRegisters s { s with answers := l, draws := n } :=
  { SameRegisters.refl s with ports := fun q => by cases q <;> rfl }

theorem SameRegisters.acquired (p : PinId) (s : State) : SameRegisters s (acquired p s) :=
  (SameRegisters.writePin _ _ _).trans (SameRegisters.emit _ _)

theorem SameRegisters.pinRelease (p : PinId) (s : State) : SameRegisters s (pinRelease p s) :=
  (SameRegisters.writePin _ _ _).trans (SameRegisters.emit _ _)

theorem SameRegisters.pinDirOut (p : PinId) (v : Bit) (s : State) : SameRegisters s (pinDirOut p v s) :=
  (SameRegisters.writePin _ _ _).trans (SameRegisters.emit _ _)

theorem SameRegisters.configureMain (p : PinId) (m : Mode) (s : State) : SameRegisters s (configureMain p m s) := by
  cases m <;> exact (SameRegisters.writePin _ _ _).trans (SameRegisters.emit _ _)

/-- After a registration refused: no register written, the pins given back (R145). -/
theorem rolledBack_of_refused {p x : PinId} {m : Mode} {s t u : State} (hp : (s.pin p).owner = .free)
    (hx : x ≠ noPin → x ≠ p ∧ (s.pin x).owner = .free) (ht : SameRegisters s t)
    (htp : ∀ q, t.pin q = if q = p then { configuredRow m (s.pin p) with owner := .self }
      else if x ≠ noPin ∧ q = x then { s.pin x with owner := .self, dir := .output, out := 0 } else s.pin q)
    (hu : SameRegisters t u) (hup : u.pins = t.pins) (hw : Memory.wf s.pins = true → Memory.wf t.pins = true) :
    RolledBack p x s (rollback (acquiredPins p x) u) := by
  have hreg : SameRegisters u (rollback (acquiredPins p x) u) := by
    unfold acquiredPins
    split
    · exact (SameRegisters.pinRelease _ _).trans (SameRegisters.pinRelease _ _)
    · exact SameRegisters.pinRelease _ _
  have hpin : ∀ q, (rollback (acquiredPins p x) u).pin q = if q = p then { configuredRow m (s.pin p) with owner := .free }
      else if x ≠ noPin ∧ q = x then { s.pin x with owner := .free, dir := .output, out := 0 } else s.pin q := by
    intro q
    unfold acquiredPins
    by_cases hxn : x = noPin
    · simp only [hxn, ne_eq, not_true_eq_false, if_false, rollback, List.foldl, pinRelease_pin, pin_congr hup, htp,
        false_and, if_true]
      split <;> rfl
    · have hxp := (hx hxn).1
      simp only [hxn, ne_eq, not_false_eq_true, if_true, rollback, List.foldl, pinRelease_pin, pin_congr hup, htp, hxp,
        Ne.symm hxp, if_false, true_and]
      by_cases h1 : q = p
      · simp [h1]
      · by_cases h2 : q = x <;> simp [h1, h2]
  have hall := (ht.trans hu).trans hreg
  refine ⟨hall.binding, hall.hold, hall.pwr, hall.straps, hall.ports, hall.teardown, hall.agenda, ?_, ?_, ?_, ?_,
    hall.grown⟩
  · intro q
    rw [hpin]
    split
    · next h => simp [h, hp]
    · split
      · next h => simp [h.2, (hx h.1).2]
      · rfl
  · intro q
    rw [hpin]
    split
    · next h => subst h; cases m <;> rfl
    · split
      · next h => simp [h.2]
      · rfl
  · intro q h1 h2
    rw [hpin, if_neg h1, if_neg fun h => h2.elim h.1 fun k => k h.2]
  · intro h
    have hu' : Memory.wf u.pins = true := hup ▸ hw h
    unfold acquiredPins
    split
    · exact pinRelease_wf _ _ (pinRelease_wf _ _ hu')
    · exact pinRelease_wf _ _ hu'

/-- After a registration accepted: the binding (R145, R146). -/
theorem bound_of_accepted {p x : PinId} {m : Mode} {s t u : State} {k : Handle} (hm : s.main = noPin)
    (hv : pinValid s p = true) (hp : (s.pin p).owner = .free)
    (hx : x ≠ noPin → x ≠ p ∧ (s.pin x).owner = .free) (ht : SameRegisters s t)
    (htp : ∀ q, t.pin q = if q = p then { configuredRow m (s.pin p) with owner := .self }
      else if x ≠ noPin ∧ q = x then { s.pin x with owner := .self, dir := .output, out := 0 } else s.pin q)
    (hu : SameRegisters t u) (hup : u.pins = t.pins) (hw : Memory.wf s.pins = true → Memory.wf t.pins = true) :
    Bound p x m s (hwInitPower (commitBinding p x m k u)) := by
  have hall := ht.trans hu
  have hpin : ∀ q, (hwInitPower (commitBinding p x m k u)).pin q =
      if q = p then { configuredRow m (s.pin p) with owner := .self }
      else if x ≠ noPin ∧ q = x then { s.pin x with owner := .self, dir := .output, out := 1 } else s.pin q := by
    intro q
    have hc : ∀ q, (commitBinding p x m k u).pin q = t.pin q := fun q => pin_congr hup q
    rw [hwInitPower_pin]
    simp only [hc, htp, show (commitBinding p x m k u).aux = x from rfl]
    by_cases h1 : q = p
    · subst h1
      rw [if_neg fun h => (hx h.1).1 h.2.symm, if_pos rfl, if_pos rfl]
    · by_cases h2 : x ≠ noPin ∧ q = x
      · rw [if_pos h2, if_neg (hx h2.1).1, if_pos ⟨h2.1, trivial⟩, if_neg h1, if_pos h2]
      · rw [if_neg h2, if_neg h1, if_neg h2, if_neg h1, if_neg h2]
  refine ⟨hm, hv, hp, hx, ?_, ?_, ?_, ?_, ?_, ?_, ?_, ?_, ?_, ?_, ?_, ?_, ?_, ?_, ?_⟩
  · simp [commitBinding]
  · simp [commitBinding]
  · simp [commitBinding]
  · simp [commitBinding]
  · simp [commitBinding, hall.pwr, hall.straps.2.2.2.2.1]
  · simpa [keepsHold, commitBinding] using hall.hold
  · simpa [keepsStraps, commitBinding] using hall.straps
  · intro q
    rw [hwInitPower_port]
    exact (show (commitBinding p x m k u).port q = u.port q by cases q <;> rfl).trans (hall.ports q)
  · simpa [commitBinding] using hall.teardown
  · simpa [commitBinding] using hall.agenda
  · rw [hpin, if_pos rfl]
  · intro h
    rw [hpin, if_neg (hx h).1, if_pos ⟨h, rfl⟩]
  · intro q h1 h2
    rw [hpin, if_neg h1, if_neg]
    rintro ⟨h3, h4⟩
    rcases h2 with h2 | h2
    · exact h3 h2
    · exact h2 h4
  · intro h
    exact hwInitPower_wf _ (show Memory.wf u.pins = true from hup ▸ hw h)
  · rw [hwInitPower_trace]
    exact hall.grown.trans (List.prefix_append _ _)

/-- HW_INIT, said once: it succeeds and leaves a binding, or it fails and is rolled back (R140, R151, R202). -/
theorem hwInit_cases (p a : PinId) (m : Mode) (s : State) :
    ((hwInit p a m s).1 = .ok ∧ Bound p (auxOperand s a) m s (hwInit p a m s).2) ∨
    (((hwInit p a m s).1 = .alreadyBound ∧ s.main ≠ noPin ∨ (hwInit p a m s).1 = .invalidPin ∨
        (hwInit p a m s).1 = .resourceUnavailable ∨ (hwInit p a m s).1 = .registrationFailed) ∧
      RolledBack p (auxOperand s a) s (hwInit p a m s).2) := by
  by_cases hm : s.main = noPin
  swap
  · rw [hwInit_alreadyBound hm]
    exact .inr ⟨.inl ⟨rfl, hm⟩, RolledBack.refl _ _ _⟩
  cases hv : pinValid s p
  · rw [hwInit_invalidPin hm hv]
    exact .inr ⟨.inr (.inl rfl), RolledBack.refl _ _ _⟩
  by_cases ho : (s.pin p).owner = .free
  swap
  · rw [hwInit_mainTaken hm hv ho]
    exact .inr ⟨.inr (.inr (.inl rfl)), RolledBack.emit _ _ _ _⟩
  rw [hwInit_mainAcquired hm hv ho]
  generalize auxOperand s a = x
  by_cases hxn : x = noPin
  · subst hxn
    rw [hwInitAux_none]
    have ht := (SameRegisters.acquired p s).trans (SameRegisters.configureMain p m _)
    have htp : ∀ q, (configureMain p m (acquired p s)).pin q =
        if q = p then { configuredRow m (s.pin p) with owner := .self }
        else if noPin ≠ noPin ∧ q = noPin then { s.pin noPin with owner := .self, dir := .output, out := 0 }
        else s.pin q := by
      intro q
      rw [configureMain_pin, acquired_pin, acquired_pin]
      cases m <;> simp [configuredRow] <;> split <;> rfl
    have hw := fun h => configureMain_wf p m _ (acquired_wf p s h)
    rcases hwInitRegister_cases p noPin m (configureMain p m (acquired p s)) with ⟨e, l, n, h⟩ | ⟨k, e, l, n, h⟩
    · rw [h]
      exact .inr ⟨.inr (.inr (.inr rfl)), rolledBack_of_refused ho (by simp) ht htp
        ((SameRegisters.answers _ _ _).trans (SameRegisters.emit _ _)) rfl hw⟩
    · rw [h]
      exact .inl ⟨rfl, bound_of_accepted hm hv ho (by simp) ht htp
        ((SameRegisters.answers _ _ _).trans (SameRegisters.emit _ _)) rfl hw⟩
  · by_cases hax : x = p ∨ (s.pin x).owner ≠ .free
    · have hxo : ((acquired p s).pin x).owner ≠ .free := by
        rw [acquired_pin]
        split
        · simp
        · next h => exact hax.resolve_left h
      rw [hwInitAux_taken hxn hxo]
      have hall := ((SameRegisters.acquired p s).trans (SameRegisters.emit _ (.acq x false))).trans
        (SameRegisters.pinRelease p _)
      have hpin : ∀ q, (pinRelease p ((acquired p s).emit (.acq x false))).pin q = s.pin q := by
        intro q
        rw [pinRelease_pin, emit_pin, emit_pin, acquired_pin, acquired_pin]
        split
        · next h => subst h; simp [← ho]
        · rfl
      exact .inr ⟨.inr (.inr (.inl rfl)), hall.binding, hall.hold, hall.pwr, hall.straps, hall.ports, hall.teardown,
        hall.agenda, fun q => by rw [hpin], fun q => by rw [hpin], fun q _ _ => hpin q,
        fun h => pinRelease_wf _ _ (acquired_wf _ _ h), hall.grown⟩
    · obtain ⟨hxp, hxo⟩ := not_or.1 hax
      have hxo := not_not.1 hxo
      have hxa : ((acquired p s).pin x).owner = .free := by rw [acquired_pin, if_neg hxp, hxo]
      rw [hwInitAux_acquired hxn hxa]
      have ht := (((SameRegisters.acquired p s).trans (SameRegisters.acquired x _)).trans
        (SameRegisters.pinDirOut x 0 _)).trans (SameRegisters.configureMain p m _)
      have htp : ∀ q, (configureMain p m (pinDirOut x 0 (acquired x (acquired p s)))).pin q =
          if q = p then { configuredRow m (s.pin p) with owner := .self }
          else if x ≠ noPin ∧ q = x then { s.pin x with owner := .self, dir := .output, out := 0 } else s.pin q := by
        intro q
        simp only [configureMain_pin, pinDirOut_pin, acquired_pin, hxp, Ne.symm hxp, if_false, if_true]
        by_cases h1 : q = p
        · subst h1
          cases m <;> simp [configuredRow]
        · by_cases h2 : q = x <;> simp [h1, h2, hxn, hxp]
      have hw := fun h => configureMain_wf p m _ (pinDirOut_wf x 0 _ (acquired_wf x _ (acquired_wf p s h)))
      have hx : x ≠ noPin → x ≠ p ∧ (s.pin x).owner = .free := fun _ => ⟨hxp, hxo⟩
      rcases hwInitRegister_cases p x m (configureMain p m (pinDirOut x 0 (acquired x (acquired p s)))) with
        ⟨e, l, n, h⟩ | ⟨k, e, l, n, h⟩
      · rw [h]
        exact .inr ⟨.inr (.inr (.inr rfl)), rolledBack_of_refused ho hx ht htp
          ((SameRegisters.answers _ _ _).trans (SameRegisters.emit _ _)) rfl hw⟩
      · rw [h]
        exact .inl ⟨rfl, bound_of_accepted hm hv ho hx ht htp
          ((SameRegisters.answers _ _ _).trans (SameRegisters.emit _ _)) rfl hw⟩

/-- HW_INIT up to the registration, with the pins it needs free: the trace of steps 2 to 4 and every pin's row. -/
theorem hwInit_prepared {s : State} {p x : PinId} {m : Mode} (h1 : s.main = noPin) (h2 : pinValid s p = true)
    (h3 : (s.pin p).owner = .free) (hx : x = auxOperand s s.cfgAuxPin)
    (h5 : x ≠ noPin → x ≠ p ∧ (s.pin x).owner = .free) :
    ∃ t, hwInit p s.cfgAuxPin m s = hwInitRegister p x m t ∧ SameRegisters s t ∧ t.answers = s.answers ∧
      t.draws = s.draws ∧
      t.trace = s.trace ++ ([.acq p true] ++ eventsIf (x ≠ noPin) [.acq x true, .dirOut x 0] ++
        eventsIf (m = .drv) [.dirOut p 1] ++ eventsIf (m = .od) [.dirIn p]) ∧
      ∀ q, t.pin q = if q = p then { configuredRow m (s.pin p) with owner := .self }
        else if x ≠ noPin ∧ q = x then { s.pin x with owner := .self, dir := .output, out := 0 } else s.pin q := by
  rw [hwInit_mainAcquired h1 h2 h3, ← hx]
  by_cases hxn : x = noPin
  · subst hxn
    rw [hwInitAux_none]
    refine ⟨_, rfl, (SameRegisters.acquired p s).trans (SameRegisters.configureMain p m _), ?_, ?_, ?_, ?_⟩
    · cases m <;> rfl
    · cases m <;> rfl
    · cases m <;> simp [configureMain, acquired, eventsIf]
    · intro q
      rw [configureMain_pin, acquired_pin, acquired_pin]
      cases m <;> simp [configuredRow] <;> split <;> rfl
  · obtain ⟨hxp, hxo⟩ := h5 hxn
    have hxa : ((acquired p s).pin x).owner = .free := by rw [acquired_pin, if_neg hxp, hxo]
    rw [hwInitAux_acquired hxn hxa]
    refine ⟨_, rfl, (((SameRegisters.acquired p s).trans (SameRegisters.acquired x _)).trans
      (SameRegisters.pinDirOut x 0 _)).trans (SameRegisters.configureMain p m _), ?_, ?_, ?_, ?_⟩
    · cases m <;> simp [configureMain, acquired]
    · cases m <;> simp [configureMain, acquired]
    · cases m <;> simp [configureMain, acquired, eventsIf, hxn]
    · intro q
      simp only [configureMain_pin, pinDirOut_pin, acquired_pin, hxp, Ne.symm hxp, if_false, if_true]
      by_cases h1 : q = p
      · subst h1
        cases m <;> simp [configuredRow]
      · by_cases h2 : q = x <;> simp [h1, h2, hxn, hxp]

/-! HW_INIT neither reads nor writes CFG_MAIN_PIN and BOOT (R28, R29). -/

/-- The state with another CFG_MAIN_PIN and another BOOT. -/
def rebooted (x : PinId) (b : BitVec 4) (s : State) : State := { s with cfgMainPin := x, boot := b }

theorem rebooted_pinAcquire (x b p) (s : State) :
    pinAcquire p (rebooted x b s) = ((pinAcquire p s).1, rebooted x b (pinAcquire p s).2) := by
  by_cases h : (s.pin p).owner = .free
  · rw [pinAcquire_free h, pinAcquire_free (s := rebooted x b s) h]; rfl
  · rw [pinAcquire_taken h, pinAcquire_taken (s := rebooted x b s) h]; rfl

theorem rebooted_engRegister (x b d) (s : State) :
    engRegister d (rebooted x b s) = ((engRegister d s).1, rebooted x b (engRegister d s).2) := by
  unfold engRegister nextAnswer
  show (_, _) = (_, _)
  rw [show (rebooted x b s).answers = s.answers from rfl]
  split <;> rfl

theorem rebooted_rollback (x b l) (s : State) : rollback l (rebooted x b s) = rebooted x b (rollback l s) := by
  induction l generalizing s with
  | nil => rfl
  | cons p l ih => exact ih (pinRelease p s)

theorem rebooted_hwInitPower (x b) (s : State) : hwInitPower (rebooted x b s) = rebooted x b (hwInitPower s) := by
  unfold hwInitPower
  dsimp only
  rw [show (rebooted x b s).cfgCap = s.cfgCap from rfl,
    show (if s.cfgCap = true then capSet 1 (rebooted x b s) else rebooted x b s) =
      rebooted x b (if s.cfgCap = true then capSet 1 s else s) by split <;> rfl]
  generalize (if s.cfgCap = true then capSet 1 s else s) = t
  show (if t.aux ≠ noPin then _ else _) = _
  split <;> rfl

theorem rebooted_hwInitRegister (x b p y m) (s : State) :
    hwInitRegister p y m (rebooted x b s) = ((hwInitRegister p y m s).1, rebooted x b (hwInitRegister p y m s).2) := by
  unfold hwInitRegister
  dsimp only
  rw [rebooted_engRegister]
  obtain ⟨r1, r2⟩ := engRegister (descriptorOf m) s
  cases r1 with
  | error => simp only [failWith, rebooted_rollback]
  | ok h => exact congrArg (Prod.mk _) (rebooted_hwInitPower x b (commitBinding p y m h r2))

theorem rebooted_configureMain (x b p m) (s : State) :
    configureMain p m (rebooted x b s) = rebooted x b (configureMain p m s) := by cases m <;> rfl

theorem rebooted_hwInitAux (x b p y m) (s : State) :
    hwInitAux p y m (rebooted x b s) = ((hwInitAux p y m s).1, rebooted x b (hwInitAux p y m s).2) := by
  unfold hwInitAux
  dsimp only
  rw [rebooted_pinAcquire]
  obtain ⟨r1, r2⟩ := pinAcquire y s
  by_cases h : y = noPin
  · simp only [h, ne_eq, not_true_eq_false, if_false]
    rw [rebooted_configureMain, rebooted_hwInitRegister]
  · simp only [h, ne_eq, not_false_eq_true, if_true]
    cases r1
    · rfl
    · simp only [if_true]
      rw [show pinDirOut y 0 (rebooted x b r2) = rebooted x b (pinDirOut y 0 r2) from rfl, rebooted_configureMain,
        rebooted_hwInitRegister]

theorem rebooted_hwInit (x b p a m) (s : State) :
    hwInit p a m (rebooted x b s) = ((hwInit p a m s).1, rebooted x b (hwInit p a m s).2) := by
  unfold hwInit
  dsimp only
  rw [rebooted_pinAcquire, show (rebooted x b s).main = s.main from rfl,
    show pinValid (rebooted x b s) p = pinValid s p from rfl,
    show auxOperand (rebooted x b s) a = auxOperand s a from rfl]
  obtain ⟨r1, r2⟩ := pinAcquire p s
  split
  · rfl
  split
  · rfl
  cases r1
  · rfl
  · simp only [if_true]; rw [rebooted_hwInitAux]

/-! HW_EXIT (R147, R148). -/

/-- Inside HW_EXIT, before the pins go back: power cut, registration withdrawn, the binding record cleared. -/
def exitCleared (s : State) : State := clearBinding (engDeregister (hwExitPower s))

/-- HW_EXIT under its precondition (R147). -/
theorem hwExit_eq {s : State} (h : s.main ≠ noPin) (hi : s.seq = .idle) : hwExit s = .next (hwExitSteps s) := by
  simp [hwExit, h, State.holding, hi]

/-- What HW_EXIT leaves (R147, R152). -/
structure Exited (s t : State) : Prop where
  main : t.main = noPin
  aux : t.aux = noPin
  handle : t.handle = none
  mode : t.mode = s.mode
  pwr : t.pwr = if s.cfgCap = true then 0 else s.pwr
  hold : keepsHold s t
  straps : keepsStraps s t
  ports : ∀ q, t.port q = s.port q
  teardown : t.teardown = s.teardown
  inputs : keepsInputs s t
  pins : ∀ q, t.pin q = { s.pin q with
    owner := if q = s.main ∨ (s.aux ≠ noPin ∧ q = s.aux) then .free else (s.pin q).owner
    out := if s.aux ≠ noPin ∧ q = s.aux then 0 else (s.pin q).out }
  table : Memory.wf s.pins = true → Memory.wf t.pins = true
  trace : t.trace = s.trace ++ (eventsIf s.cfgCap [.cap 0] ++ eventsIf (s.aux ≠ noPin) [.set s.aux 0] ++
    s.handle.toList.map Event.dereg ++ [.rel s.main] ++ eventsIf (s.aux ≠ noPin) [.rel s.aux])

theorem exitCleared_trace (s : State) : (exitCleared s).trace = s.trace ++ (eventsIf s.cfgCap [.cap 0] ++
    eventsIf (s.aux ≠ noPin) [.set s.aux 0] ++ s.handle.toList.map Event.dereg) := by
  unfold exitCleared
  cases h : s.handle with
  | none =>
    rw [engDeregister_none (by simpa using h)]
    simp [clearBinding, hwExitPower_trace]
  | some k =>
    rw [engDeregister_some (h := k) (by simpa using h)]
    simp [clearBinding, hwExitPower_trace]

theorem engDeregister_cases (s : State) : ∃ l, engDeregister s = { s with trace := l } := by
  rcases Option.eq_none_or_eq_some s.handle with h | ⟨k, h⟩
  · exact ⟨s.trace, engDeregister_none h⟩
  · exact ⟨s.trace ++ [.dereg k], by rw [engDeregister_some h]; rfl⟩

/-- HW_EXIT, said once. -/
theorem hwExitSteps_exited (s : State) : Exited s (hwExitSteps s) := by
  obtain ⟨l, hl⟩ := engDeregister_cases (hwExitPower s)
  have hc : exitCleared s = { hwExitPower s with trace := l, handle := none, main := noPin, aux := noPin } := by
    simp only [exitCleared, clearBinding, hl]
  have hs : hwExitSteps s = releaseBinding s.main s.aux (exitCleared s) := rfl
  have hpc : ∀ q, (exitCleared s).pin q = (hwExitPower s).pin q := fun q => pin_congr (by rw [hc]) q
  have ht := exitCleared_trace s
  refine ⟨?_, ?_, ?_, ?_, ?_, ?_, ?_, ?_, ?_, ?_, ?_, ?_, ?_⟩
  all_goals rw [hs]; unfold releaseBinding
  · split <;> simp [hc]
  · split <;> simp [hc]
  · split <;> simp [hc]
  · split <;> simp [hc]
  · split <;> simp [hc]
  · split <;> simp [hc, keepsHold]
  · split <;> simp [hc, keepsStraps]
  · intro q
    have : (exitCleared s).port q = s.port q := by rw [hc]; cases q <;> simp [State.port]
    split <;> simp [this]
  · split <;> simp [hc]
  · split <;> simp [hc, keepsInputs]
  · intro q
    split
    · next h =>
      simp only [pinRelease_pin, hpc, hwExitPower_pin, h, true_and, ne_eq, not_false_eq_true]
      by_cases h1 : q = s.main <;> by_cases h2 : q = s.aux <;> by_cases h3 : s.aux = s.main <;>
        simp_all
    · next h =>
      simp only [pinRelease_pin, hpc, hwExitPower_pin, h, false_and, if_false, or_false]
      split
      · next h1 => subst h1; rfl
      · rfl
  · intro h
    have hw : Memory.wf (exitCleared s).pins = true := by rw [hc]; exact hwExitPower_wf s h
    split
    · exact pinRelease_wf _ _ (pinRelease_wf _ _ hw)
    · exact pinRelease_wf _ _ hw
  · split <;> simp_all [eventsIf]

end Sys2Proof.Machine
end

