-- ==== Sys2Proof/Laws/Commands.lean ====
section
/-! SUPPORT. The equation of each command under each of its conditions (spec/40_bit_transfer.md, spec/42_control_channel.md,
spec/43_power_hooks.md), and the row of the main pin after a write and around a hold. -/

namespace Sys2Proof.Machine

theorem mode_cases (m : Mode) : m = .od ∨ m = .drv := by cases m <;> simp

theorem seq_cases (q : Seq) : q = .idle ∨ q = .puHold := by cases q <;> simp

theorem exec_bind (p : PinId) (s : State) :
    exec (.bind p) s =
      .next (respond .cc (hwInit p s.cfgAuxPin s.cfgMode s).1 0 (hwInit p s.cfgAuxPin s.cfgMode s).2) := rfl

theorem exec_querypin (s : State) : exec .querypin s = .next (respond .cc .ok s.main s) := rfl

theorem exec_suspend (s : State) : exec .suspend s = .next (respond .pm .ok 0 (hookCap 0 s)) := rfl

theorem exec_resume (s : State) : exec .resume s = .next (respond .pm .ok 0 (hookCap 1 s)) := rfl

theorem exec_readBit_unbound {s : State} (h : s.main = noPin) : exec .readBit s = .next (respond .bt .ok 0 s) := if_pos h

theorem exec_readBit_bound {s : State} (h : s.main ≠ noPin) :
    exec .readBit s = .next (respond .bt .ok (levelValue (pinGet s.main s).1) (pinGet s.main s).2) := if_neg h

theorem exec_writeBit_unbound {s : State} {v : Bit} (h : s.main = noPin) :
    exec (.writeBit v) s = .next (respond .bt .ok 0 s) := if_pos h

theorem exec_writeBit_bound {s : State} {v : Bit} (h : s.main ≠ noPin) :
    exec (.writeBit v) s = .next (respond .bt .ok 0 (writeMain v s)) := if_neg h

theorem writeMain_drv {s : State} {v : Bit} (h : s.mode = .drv) : writeMain v s = pinSet s.main v s := by
  simp only [writeMain, State.strat, h]

theorem writeMain_od_one {s : State} (h : s.mode = .od) : writeMain 1 s = pinDirIn s.main s := by
  simp only [writeMain, State.strat, h, if_true]

theorem writeMain_od_zero {s : State} (h : s.mode = .od) : writeMain 0 s = pinDirOut s.main 0 s := by
  simp only [writeMain, State.strat, h]
  rfl

/-- A write to the main pin is one of the three. -/
theorem writeMain_cases (v : Bit) (s : State) :
    (s.mode = .drv ∧ writeMain v s = pinSet s.main v s) ∨
    (s.mode = .od ∧ v = 1 ∧ writeMain v s = pinDirIn s.main s) ∨
    (s.mode = .od ∧ v ≠ 1 ∧ writeMain v s = pinDirOut s.main 0 s) := by
  cases h : s.mode with
  | drv => exact .inl ⟨rfl, writeMain_drv h⟩
  | od =>
    by_cases hv : v = 1
    · subst hv; exact .inr (.inl ⟨rfl, rfl, writeMain_od_one h⟩)
    · exact .inr (.inr ⟨rfl, hv, by simp only [writeMain, State.strat, h, if_neg hv]⟩)

theorem writeMain_main (v : Bit) (s : State) : (writeMain v s).main = s.main := by
  rcases writeMain_cases v s with ⟨_, h⟩ | ⟨_, _, h⟩ | ⟨_, _, h⟩ <;> rw [h] <;> rfl

theorem exec_setPullup_unbound {s : State} {d : Duration} (h : s.main = noPin) :
    exec (.setPullup d) s = .next (respond .bt .ok 0 s) := if_pos h

theorem exec_setPullup_drv {s : State} {d : Duration} (hm : s.mode = .drv) :
    exec (.setPullup d) s = .next (respond .bt .ok 0 s) := by
  show execSetPullup d s = _
  unfold execSetPullup
  rw [if_pos (show s.pucap = false by simp only [State.pucap, hm]; rfl)]
  split <;> rfl

theorem exec_setPullup_od {s : State} {d : Duration} (h : s.main ≠ noPin) (hm : s.mode = .od) :
    exec (.setPullup d) s = if d ≠ 0 then .next (respond .bt .ok 0 { s with pend := d })
      else if s.pend = 0 then .next (respond .bt .ok 0 s) else .next (startHold s) := by
  show execSetPullup d s = _
  unfold execSetPullup
  rw [if_neg h, if_neg (show ¬(s.pucap = false) by simp only [State.pucap, hm]; decide)]

theorem exec_setPullup_arm {s : State} {d : Duration} (h : s.main ≠ noPin) (hm : s.mode = .od) (hd : d ≠ 0) :
    exec (.setPullup d) s = .next (respond .bt .ok 0 { s with pend := d }) := by
  rw [exec_setPullup_od h hm, if_pos hd]

theorem exec_setPullup_idle {s : State} (h : s.main ≠ noPin) (hm : s.mode = .od) (hp : s.pend = 0) :
    exec (.setPullup 0) s = .next (respond .bt .ok 0 s) := by
  rw [exec_setPullup_od h hm, if_neg (by simp), if_pos hp]

theorem exec_setPullup_fire {s : State} (h : s.main ≠ noPin) (hm : s.mode = .od) (hp : s.pend ≠ 0) :
    exec (.setPullup 0) s = .next (startHold s) := by
  rw [exec_setPullup_od h hm, if_neg (by simp), if_neg hp]

/-- A SET_PULLUP arms, fires, or only answers. -/
theorem exec_setPullup_cases (d : Duration) (s : State) :
    exec (.setPullup d) s = .next (respond .bt .ok 0 s) ∨
    (s.main ≠ noPin ∧ s.mode = .od ∧ d ≠ 0 ∧ exec (.setPullup d) s = .next (respond .bt .ok 0 { s with pend := d })) ∨
    (s.main ≠ noPin ∧ s.mode = .od ∧ d = 0 ∧ s.pend ≠ 0 ∧ exec (.setPullup d) s = .next (startHold s)) := by
  by_cases h : s.main = noPin
  · exact .inl (exec_setPullup_unbound h)
  rcases mode_cases s.mode with hm | hm
  · by_cases hd : d = 0
    · subst hd
      by_cases hp : s.pend = 0
      · exact .inl (exec_setPullup_idle h hm hp)
      · exact .inr (.inr ⟨h, hm, rfl, hp, exec_setPullup_fire h hm hp⟩)
    · exact .inr (.inl ⟨h, hm, hd, exec_setPullup_arm h hm hd⟩)
  · exact .inl (exec_setPullup_drv hm)

theorem startHold_pin (s : State) (q : PinId) : (startHold s).pin q =
    if q = s.main then { s.pin s.main with dir := .output, out := 1 } else s.pin q := pinDirOut_pin s.main 1 s q

theorem startHold_trace (s : State) : (startHold s).trace = s.trace ++ [.dirOut s.main 1, .wait s.pend] := by
  simp [startHold]

theorem endHold_pin (s : State) (q : PinId) : (endHold s).pin q =
    if q = s.main then { s.pin s.main with dir := .input } else s.pin q := pinDirIn_pin s.main s q

theorem endHold_trace (s : State) : (endHold s).trace = s.trace ++ [.dirIn s.main, .resp .bt .ok 0] := by
  simp [endHold]

theorem puExpire_enabled {s : State} (h : s.seq = .puHold) (he : s.pend.toNat ≤ s.elapsed) : puExpire s = endHold s := by
  simp [puExpire, State.expireEnabled, State.holding, h, he]

theorem puExpire_disabled {s : State} (h : s.seq = .idle ∨ s.elapsed < s.pend.toNat) : puExpire s = s := by
  rcases h with h | h
  · simp [puExpire, State.expireEnabled, State.holding, h]
  · simp [puExpire, State.expireEnabled, Nat.not_le.2 h]

theorem exec_unbind_unbound {s : State} (h : s.main = noPin) : exec .unbind s = .next (respond .cc .notBound 0 s) :=
  if_pos h

theorem exec_unbind_held {s : State} (h : s.main ≠ noPin) (hs : s.seq = .puHold) : exec .unbind s = .next s := by
  show execUnbind s = _
  unfold execUnbind
  rw [if_neg h, if_pos (by simp [State.unbindHeld, State.bound, State.holding, h, hs])]

theorem exec_unbind_bound {s : State} (h : s.main ≠ noPin) (hs : s.seq = .idle) :
    exec .unbind s = .next (respond .cc .ok 0 (hwExitSteps s)) := by
  show execUnbind s = _
  unfold execUnbind
  rw [if_neg h, if_neg (by simp [State.unbindHeld, State.holding, hs]), hwExit_eq h hs]
  rfl

theorem serveTeardown_none {s : State} (h : s.teardown = false) : serveTeardown s = .next s := if_pos h

theorem serveTeardown_unbound {s : State} (h : s.main = noPin) : serveTeardown s = .next (clearTeardown s) := by
  unfold serveTeardown
  rw [if_pos h]
  split
  · next ht => simp only [clearTeardown, ← ht]
  · rfl

theorem serveTeardown_held {s : State} (h : s.main ≠ noPin) (hs : s.seq = .puHold) : serveTeardown s = .next s := by
  unfold serveTeardown
  rw [if_neg h, if_pos (show s.holding = true by simp [State.holding, hs])]
  split <;> rfl

theorem serveTeardown_bound {s : State} (ht : s.teardown = true) (h : s.main ≠ noPin) (hs : s.seq = .idle) :
    serveTeardown s = .next (clearTeardown (hwExitSteps s)) := by
  unfold serveTeardown
  rw [if_neg (by simp [ht]), if_neg h, if_neg (by simp [State.holding, hs]), hwExit_eq h hs]
  rfl

theorem hookCap_acts {s : State} {v : Bit} (h : s.cfgCap = true ∧ s.main ≠ noPin) : hookCap v s = capSet v s := if_pos h

theorem hookCap_idle {s : State} {v : Bit} (h : ¬(s.cfgCap = true ∧ s.main ≠ noPin)) : hookCap v s = s := if_neg h

end Sys2Proof.Machine
end

