-- ==== Sys2Proof/Laws/Decode.lean ====
section
/-! SUPPORT. The fields of an encoded word, and the disjointness of the classes. -/

namespace Sys2Proof

/-- A bit of a word put together from an opcode and an operand. -/
theorem getLsbD_word (op : BitVec 8) (arg : BitVec 24) (i : Nat) :
    (op ++ arg : Word).getLsbD i = if i < 24 then arg.getLsbD i else op.getLsbD (i - 24) := BitVec.getLsbD_append

/-- The operand field of a word put together from an opcode and an operand. -/
@[simp] theorem argField_append (op : BitVec 8) (arg : BitVec 24) : argField (op ++ arg) = arg := by
  apply BitVec.eq_of_getLsbD_eq
  intro i hi
  rw [argField, BitVec.getLsbD_extractLsb', getLsbD_word]
  simp [hi]

/-- Its opcode field. -/
@[simp] theorem opcodeField_append (op : BitVec 8) (arg : BitVec 24) :
    (op ++ arg : Word).extractLsb' 24 8 = op := by
  apply BitVec.eq_of_getLsbD_eq
  intro i hi
  rw [BitVec.getLsbD_extractLsb', getLsbD_word, if_neg (by omega), show 24 + i - 24 = i by omega]
  simp [hi]

/-- The class is the high half of the opcode. -/
theorem clsField_append (op : BitVec 8) (arg : BitVec 24) : clsField (op ++ arg) = op.extractLsb' 4 4 := by
  apply BitVec.eq_of_getLsbD_eq
  intro i hi
  rw [clsField, BitVec.getLsbD_extractLsb', getLsbD_word, if_neg (by omega), show 28 + i - 24 = 4 + i by omega,
    BitVec.getLsbD_extractLsb']

/-- The function is its low half. -/
theorem fnField_append (op : BitVec 8) (arg : BitVec 24) : fnField (op ++ arg) = op.extractLsb' 0 4 := by
  apply BitVec.eq_of_getLsbD_eq
  intro i hi
  rw [fnField, BitVec.getLsbD_extractLsb', getLsbD_word, if_neg (by omega), show 24 + i - 24 = i by omega,
    BitVec.getLsbD_extractLsb', Nat.zero_add]

/-- A word is its class, its function and its operand. -/
theorem word_eq_fields (w : Word) : w = (clsField w ++ fnField w : BitVec 8) ++ argField w := by
  apply BitVec.eq_of_getLsbD_eq
  intro i hi
  have h8 : ∀ j, (clsField w ++ fnField w : BitVec 8).getLsbD j =
      if j < 4 then (fnField w).getLsbD j else (clsField w).getLsbD (j - 4) := fun _ => BitVec.getLsbD_append
  rw [getLsbD_word, h8]
  simp only [clsField, fnField, argField, BitVec.getLsbD_extractLsb']
  by_cases h1 : i < 24
  · simp [h1]
  · by_cases h2 : i - 24 < 4
    · simp [h1, h2, show 24 + (i - 24) = i by omega]
    · simp [h1, h2, show 28 + (i - 24 - 4) = i by omega, show i - 24 - 4 < 4 by omega]

/-- A class number names the port whose number it is. -/
theorem portOfCls_eq_some {c : BitVec 4} {p : PortId} : portOfCls c = some p ↔ c = p.cls := by
  unfold portOfCls PortId.cls
  revert c
  cases p <;> decide

/-- Only the classes 1, 2 and 3 name a port. -/
theorem portOfCls_eq_none {c : BitVec 4} : portOfCls c = none ↔ ∀ p : PortId, c ≠ p.cls := by
  constructor
  · intro h p hp
    rw [portOfCls_eq_some.2 hp] at h
    cases h
  · intro h
    cases hc : portOfCls c with
    | none => rfl
    | some p => exact absurd (portOfCls_eq_some.1 hc) (h p)

/-- WRITE_BIT's operand field is its bit, and nothing above it. -/
theorem writeBitOperand_setWidth (v : Bit) : writeBitOperand (v.setWidth 24) = .ok (.writeBit v) := by
  revert v
  decide

end Sys2Proof
end

