-- ==== Sys2Proof/Laws/PerInstr.lean ====
section
/-! SUPPORT. Statements about every command, one lemma per constructor (LAWS.json). -/

namespace Sys2Proof.Laws

/-- The family EncodedFields: the class of a command's word is its port's, the word's opcode and operand fields are the
command's, and the word selects the command's row (spec/30_encoding.md R91, R92, R95). -/
def EncodedFields.Statement (i : Instr) : Prop :=
  clsField (encode i) = i.port.cls ∧ (encode i).extractLsb' 24 8 = i.opcode ∧ argField (encode i) = i.operand ∧
    i.row.selects i.port (encode i) = true

theorem and_append_operand (op : BitVec 8) (arg : BitVec 24) :
    (op ++ arg : Word) &&& 0xFF000000#32 = (op ++ 0#24 : Word) := by
  apply BitVec.eq_of_getLsbD_eq
  intro i hi
  have hm : ∀ j < 32, (0xFF000000#32).getLsbD j = decide (¬ j < 24) := by decide
  rw [BitVec.getLsbD_and, getLsbD_word, getLsbD_word, hm i hi]
  by_cases h : i < 24 <;> simp [h]

theorem EncodedFields.bind (pin : PinId) : EncodedFields.Statement (.bind pin) :=
  ⟨(clsField_append _ _).trans (by simp only [Instr.opcode, Instr.port]; decide), opcodeField_append _ _, argField_append _ _, by
    simp only [OpcodeRow.selects, Instr.row, Instr.port, encode, and_append_operand, Instr.opcode]; decide⟩

theorem EncodedFields.unbind : EncodedFields.Statement .unbind := by
  unfold EncodedFields.Statement
  decide

theorem EncodedFields.querypin : EncodedFields.Statement .querypin := by
  unfold EncodedFields.Statement
  decide

theorem EncodedFields.readBit : EncodedFields.Statement .readBit := by
  unfold EncodedFields.Statement
  decide

theorem EncodedFields.writeBit (v : Bit) : EncodedFields.Statement (.writeBit v) := by
  unfold EncodedFields.Statement
  revert v
  decide

theorem EncodedFields.setPullup (d : Duration) : EncodedFields.Statement (.setPullup d) :=
  ⟨(clsField_append _ _).trans (by simp only [Instr.opcode, Instr.port]; decide), opcodeField_append _ _, argField_append _ _, by
    simp only [OpcodeRow.selects, Instr.row, Instr.port, encode, and_append_operand, Instr.opcode]; decide⟩

theorem EncodedFields.suspend : EncodedFields.Statement .suspend := by
  unfold EncodedFields.Statement
  decide

theorem EncodedFields.resume : EncodedFields.Statement .resume := by
  unfold EncodedFields.Statement
  decide

end Sys2Proof.Laws
end

