-- ==== Sys2Proof/Laws/Step.lean ====
section
/-! SUPPORT. The step by cases: the move the agenda names, or one the block can make by itself; and serving a port by
cases. -/

namespace Sys2Proof.Machine

/-- With a move on the agenda, the step is that move. -/
theorem step_agenda {s : State} {m : Move} {rest : List Move} (h : s.agenda = m :: rest) :
    step s = perform m { s with agenda := rest } := by
  simp only [step, nextMove, h]

/-- With no move on the agenda, the block runs by itself. -/
theorem step_freeRun {s : State} (h : s.agenda = []) : step s = freeRun s := by
  simp only [step, nextMove, h]

/-- Running by itself, the block rests if it can do nothing, or makes a move it can make. -/
theorem freeRun_cases (s : State) :
    (s.ready = [] ∧ freeRun s = .next s) ∨
    ∃ m n, m ∈ s.ready ∧ freeRun s = perform m { s with draws := n } := by
  unfold freeRun
  split
  · next h => exact .inl ⟨h, rfl⟩
  · next m h => exact .inr ⟨m, s.draws, by simp [h], rfl⟩
  · next m ms _ h =>
    refine .inr ⟨_, s.draws + 1, ?_, rfl⟩
    rw [h]
    have hl : Config.arbiter s.draws % (m :: ms).length < (m :: ms).length := Nat.mod_lt _ (by simp)
    rw [List.getD_eq_getElem _ _ hl]
    exact List.getElem_mem hl

/-- A step is a move: the agenda's, or one the block can make, or none at all. -/
theorem step_cases (s : State) :
    (∃ m rest, s.agenda = m :: rest ∧ step s = perform m { s with agenda := rest }) ∨
    (s.agenda = [] ∧ s.ready = [] ∧ step s = .next s) ∨
    ∃ m n, s.agenda = [] ∧ m ∈ s.ready ∧ step s = perform m { s with draws := n } := by
  by_cases h : s.agenda = []
  · rcases freeRun_cases s with ⟨h1, h2⟩ | ⟨m, n, h1, h2⟩
    · exact .inr (.inl ⟨h, h1, (step_freeRun h).trans h2⟩)
    · exact .inr (.inr ⟨m, n, h, h1, (step_freeRun h).trans h2⟩)
  · obtain ⟨m, rest, h⟩ := List.exists_cons_of_ne_nil h
    exact .inl ⟨m, rest, h, step_agenda h⟩

theorem mem_moveIf {c : Bool} {m n : Move} : n ∈ moveIf c m ↔ c = true ∧ n = m := by
  unfold moveIf
  split <;> simp_all

/-- The moves the block can make by itself, one by one. -/
theorem mem_ready {s : State} {m : Move} : m ∈ s.ready ↔
    (s.ccReady = true ∧ m = .serve .cc) ∨ ((s.bt.req.isSome && !s.holding) = true ∧ m = .serve .bt) ∨
    (s.pm.req.isSome = true ∧ m = .serve .pm) ∨ ((s.teardown && !s.holding) = true ∧ m = .serveTeardown) ∨
    (s.holding = true ∧ m = if s.expireEnabled = true then .puExpire else .tick) := by
  simp only [State.ready, List.mem_append, mem_moveIf]

/-- No RESET is among them. -/
theorem reset_notMem_ready {s : State} {d : Descriptor} : .reset d ∉ s.ready := by
  rw [mem_ready]
  rintro (⟨_, h⟩ | ⟨_, h⟩ | ⟨_, h⟩ | ⟨_, h⟩ | ⟨_, h⟩)
  all_goals first | cases h | (split at h <;> cases h)

/-- Serving a port with nothing outstanding. -/
theorem serve_none {p : PortId} {s : State} (h : (s.port p).req = none) : serve p s = .next s := by
  simp [serve, h]

/-- Serving an illegal word (R100). -/
theorem serve_illegal {p : PortId} {s : State} {w : Word} {e : Illegal} (h : (s.port p).req = some w)
    (hd : decode p w = .error e) : serve p s = .next (respondError p .illegalCommand s) := by
  simp [serve, h, hd]

/-- Serving a command (R74, R82). -/
theorem serve_command {p : PortId} {s : State} {w : Word} {i : Instr} (h : (s.port p).req = some w)
    (hd : decode p w = .ok i) : serve p s = if s.portInHold p = true then .next s else exec i s := by
  simp [serve, h, hd]

/-- Serving a port, said once. -/
theorem serve_cases (p : PortId) (s : State) :
    ((s.port p).req = none ∧ serve p s = .next s) ∨
    (∃ w e, (s.port p).req = some w ∧ decode p w = .error e ∧
      serve p s = .next (respondError p .illegalCommand s)) ∨
    ∃ w i, (s.port p).req = some w ∧ decode p w = .ok i ∧
      serve p s = if s.portInHold p = true then .next s else exec i s := by
  cases h : (s.port p).req with
  | none => exact .inl ⟨rfl, serve_none h⟩
  | some w =>
    cases hd : decode p w with
    | error e => exact .inr (.inl ⟨w, e, rfl, hd, serve_illegal h hd⟩)
    | ok i => exact .inr (.inr ⟨w, i, rfl, hd, serve_command h hd⟩)

/-- A command decoded on a port is one of that port's (R92). -/
theorem port_of_decode {p : PortId} {w : Word} {i : Instr} (h : decode p w = .ok i) : i.port = p := by
  unfold decode at h
  split at h
  · cases h
  · split at h
    · cases p <;> simp only [decodeCc, decodeBt, decodePm, noOperand, writeBitOperand] at h <;>
        repeat' (split at h)
      all_goals first | cases h; rfl | cases h
    · cases h

/-- A move of ENV that may be made writes its row. -/
theorem envWrite_taken {may : Bool} (h : may = true) (p : PinId) (r : Pin) (s : State) :
    envWrite may p r s = s.writePin p r := if_pos h

/-- A move of ENV that may not be made changes nothing. -/
theorem envWrite_failed {may : Bool} (h : may ≠ true) (p : PinId) (r : Pin) (s : State) : envWrite may p r s = s := if_neg h

theorem heldByEnv_iff {s : State} {p : PinId} :
    heldByEnv s p = true ↔ pinValid s p = true ∧ (s.pin p).owner = .other := by
  simp [heldByEnv]

theorem freeForEnv_iff {s : State} {p : PinId} :
    (pinValid s p && (s.pin p).owner == .free) = true ↔ pinValid s p = true ∧ (s.pin p).owner = .free := by
  simp

/-- The moves of ENV. -/
def Move.isEnv (m : Move) : Prop :=
  (∃ p, m = .envAcquire p) ∨ (∃ p, m = .envRelease p) ∨ (∃ p d v, m = .envDrive p d v) ∨ ∃ p b, m = .envLine p b

/-- A move of ENV, said once: it goes on, and changes nothing, or writes one row: of a pin the block neither holds nor then
holds, or of any pin with owner, direction and level kept (R60, R61, R73). -/
theorem env_cases {m : Move} (hm : m.isEnv) (s : State) :
    perform m s = .next s ∨
    ∃ p r, perform m s = .next (s.writePin p r) ∧ pinValid s p = true ∧
      (((s.pin p).owner ≠ .self ∧ r.owner ≠ .self) ∨
        (r.owner = (s.pin p).owner ∧ r.dir = (s.pin p).dir ∧ r.out = (s.pin p).out)) := by
  rcases hm with ⟨p, rfl⟩ | ⟨p, rfl⟩ | ⟨p, d, v, rfl⟩ | ⟨p, b, rfl⟩
  · by_cases h : (pinValid s p && (s.pin p).owner == .free) = true
    · obtain ⟨hv, ho⟩ := freeForEnv_iff.mp h
      exact .inr ⟨p, _, congrArg _ (envWrite_taken h p _ s), hv, .inl (by simp [ho])⟩
    · exact .inl (congrArg _ (envWrite_failed h p _ s))
  · by_cases h : heldByEnv s p = true
    · obtain ⟨hv, ho⟩ := heldByEnv_iff.mp h
      exact .inr ⟨p, _, congrArg _ (envWrite_taken h p _ s), hv, .inl (by simp [ho])⟩
    · exact .inl (congrArg _ (envWrite_failed h p _ s))
  · by_cases h : heldByEnv s p = true
    · obtain ⟨hv, ho⟩ := heldByEnv_iff.mp h
      exact .inr ⟨p, _, congrArg _ (envWrite_taken h p _ s), hv, .inl (by simp [ho])⟩
    · exact .inl (congrArg _ (envWrite_failed h p _ s))
  · by_cases h : pinValid s p = true
    · exact .inr ⟨p, _, congrArg _ (envWrite_taken h p _ s), h, .inr ⟨rfl, rfl, rfl⟩⟩
    · exact .inl (congrArg _ (envWrite_failed h p _ s))

/-- A run whose first step goes on is that step, then the rest. -/
theorem run_succ (M : Host.Core) (n : Nat) {s t : M.State} (h : M.step s = .next t) : M.run (n + 1) s = M.run n t := by
  simp only [Host.Core.run, h]

end Sys2Proof.Machine
end

