-- ==== Sys2Proof/Tests/Slice0.lean ====
section
/-! SUPPORT. The model's own tests. Expected results are those of spec/95_test_vectors.md (the vector's or step's number
stands at each) or a rule's own example. Then, for every obligation with hypotheses, a state that meets them
(`witness_<Name>`), clause by clause. -/

namespace Sys2Proof.Machine.Tests

/-! ### States -/

/-- The common start of 2.3: configuration A, unbound, engine answers `ok(1)`, `ok(2)`. -/
def common : State := State.powerOn Board.confA Descriptor.confA [] [.ok 1, .ok 2]

/-- Bound to 17, open-drain, HANDLE 1, no aux pin, no capability: the common start of 2.4. -/
def bound17 : State :=
  { common with main := 17, handle := some 1, answers := [.ok 2], pins := [(17, ⟨.self, .input, 0, false⟩)] }

/-- Configuration B, bound to 17 with aux pin 4 and the capability on: program 3 after step 3. -/
def withAux : State :=
  { bound17 with cfgAuxPin := 4, cfgCap := true, aux := 4, pwr := 1
                 pins := [(4, ⟨.self, .output, 1, false⟩), (17, ⟨.self, .input, 0, false⟩)] }

/-- Bound to 9 in driven mode, HANDLE 7: program 4 after step 2. -/
def driven9 : State :=
  { common with mode := .drv, cfgMode := .drv, main := 9, handle := some 7, answers := []
                pins := [(9, ⟨.self, .output, 1, false⟩)] }

/-- Bound to 17 with 100 TICKs armed: B13. -/
def armed17 : State := { bound17 with pend := 100 }

/-- In the hold of 100 TICKs, none of them past: B14. -/
def hold17 : State :=
  { armed17 with seq := .puHold, bt := ⟨some 0x22000000#32, none⟩, pins := [(17, ⟨.self, .output, 1, false⟩)] }

/-- Pin 7 held by another owner: V5. -/
def taken7 : State := { common with pins := [(7, ⟨.other, .input, 0, false⟩)] }

/-- The outcome is a next state that passes the check. -/
def after (o : Host.Outcome State Fault Refusal) (check : State → Bool) : Bool :=
  match o with
  | .next t => check t
  | .fault _ => false
  | .refused _ => false

/-- The command's events are these, and the port shows this response word. -/
def shows (o : Host.Outcome State Fault Refusal) (p : PortId) (es : List Event) (w : Word) (check : State → Bool) :
    Bool :=
  after o fun t => t.trace == es && t.port p == ⟨none, some w⟩ && check t

/-! ### Well-formedness -/

theorem test_request_on_a_wrong_port_is_refused : Request.wf ⟨.pm, .bind 17⟩ = false := by decide

theorem test_board_without_pins_is_refused : Board.wf { Board.confA with npins := 0 } = false := by decide

theorem test_strong_pullup_of_no_duration_is_refused : Pseudo.wf (.strongPullup 0 []) = false := by decide

theorem test_strong_pullup_around_another_class_is_refused :
    Pseudo.wf (.strongPullup 750 [.writeBit 1, .querypin]) = false := by decide

theorem test_well_formed_terms_pass :
    Request.wf ⟨.cc, .bind 17⟩ = true ∧ Board.wf Board.confA = true ∧
      Pseudo.wf (.strongPullup 750 [.writeBit 1]) = true := by decide

/-! ### Decoding (2.1): the words written out from the layout cls, fn, arg of R91 -/

theorem test_decode_bind :
    decode .cc (0b0001#4 ++ 0b0000#4 ++ 0x000011#24) = .ok (.bind 17) ∧ decode .cc 0x10000000#32 = .ok (.bind 0) ∧
      decode .cc 0x10FFFFFF#32 = .ok (.bind 0xFFFFFF) ∧ decode .bt 0x10000011#32 = .error .wrongPort := by decide

theorem test_decode_unbind :
    decode .cc (0b0001#4 ++ 0b0001#4 ++ 0x000000#24) = .ok .unbind ∧
      decode .cc 0x11000001#32 = .error .operandNotZero ∧ decode .pm 0x11000000#32 = .error .wrongPort := by decide

theorem test_decode_querypin :
    decode .cc (0b0001#4 ++ 0b0010#4 ++ 0x000000#24) = .ok .querypin ∧
      decode .cc 0x12800000#32 = .error .operandNotZero := by decide

theorem test_decode_readBit :
    decode .bt (0b0010#4 ++ 0b0000#4 ++ 0x000000#24) = .ok .readBit ∧
      decode .bt 0x20000001#32 = .error .operandNotZero ∧ decode .cc 0x20000000#32 = .error .wrongPort := by decide

theorem test_decode_writeBit :
    decode .bt (0b0010#4 ++ 0b0001#4 ++ 0x000000#24) = .ok (.writeBit 0) ∧
      decode .bt 0x21000001#32 = .ok (.writeBit 1) ∧ decode .bt 0x21000002#32 = .error .operandNotZero ∧
      decode .bt 0x21000003#32 = .error .operandNotZero := by decide

theorem test_decode_setPullup :
    decode .bt (0b0010#4 ++ 0b0010#4 ++ 0x0002EE#24) = .ok (.setPullup 750) ∧
      decode .bt 0x22000000#32 = .ok (.setPullup 0) ∧ decode .bt 0x22FFFFFF#32 = .ok (.setPullup 16777215) := by decide

theorem test_decode_suspend :
    decode .pm (0b0011#4 ++ 0b0000#4 ++ 0x000000#24) = .ok .suspend ∧
      decode .pm 0x30000001#32 = .error .operandNotZero := by decide

theorem test_decode_resume :
    decode .pm (0b0011#4 ++ 0b0001#4 ++ 0x000000#24) = .ok .resume ∧
      decode .pm 0x32000000#32 = .error .unknownFunction := by decide

theorem test_decode_no_command :
    decode .cc 0x13000000#32 = .error .unknownFunction ∧ decode .cc 0x1F000000#32 = .error .unknownFunction ∧
      decode .bt 0x23000000#32 = .error .unknownFunction ∧ decode .cc 0x00000000#32 = .error .unknownClass ∧
      decode .pm 0xFFFFFFFF#32 = .error .unknownClass := by decide

theorem test_decode_table_word :
    decodeTableWord 32 0x21000001 = some (.writeBit 1) ∧ decodeTableWord 32 0x11000001 = none := by decide

/-- The expansions of R108. -/
theorem test_pseudo_commands :
    Pseudo.expand (.rebind 5) = [.unbind, .bind 5] ∧
      Pseudo.expand (.strongPullup 750 [.writeBit 1]) = [.setPullup 750, .writeBit 1, .setPullup 0] := by decide

/-- The examples of R107. -/
theorem test_text :
    Request.text ⟨.cc, .bind 17⟩ = "CC: BIND 17" ∧ Request.text ⟨.bt, .writeBit 1⟩ = "BT: WRITE_BIT 1" ∧
      Instr.text (.setPullup 750) = "SET_PULLUP 750" ∧ responseText .ok 17 = "-> OK 17" ∧
      responseText .alreadyBound 0 = "-> AlreadyBound" := by decide

/-! ### Control Channel (2.3) -/

/-- V1, V2, V10, V12. -/
theorem test_bind_succeeds :
    shows (exec (.bind 0) common) .cc [.acq 0 true, .dirIn 0, .reg 0b111 (.ok 1), .resp .cc .ok 0] 0
        (fun t => t.main == 0 && t.handle == some 1 && t.aux == noPin) = true ∧
      shows (exec (.bind 31) common) .cc [.acq 31 true, .dirIn 31, .reg 0b111 (.ok 1), .resp .cc .ok 0] 0
        (fun t => t.main == 31) = true ∧
      shows (exec (.bind 7) { common with cfgMode := .drv }) .cc
        [.acq 7 true, .dirOut 7 1, .reg 0b011 (.ok 1), .resp .cc .ok 0] 0
        (fun t => t.mode == .drv && t.pin 7 == ⟨.self, .output, 1, false⟩) = true ∧
      shows (exec (.bind 7) { common with cfgAuxPin := 40 }) .cc
        [.acq 7 true, .dirIn 7, .reg 0b111 (.ok 1), .resp .cc .ok 0] 0
        (fun t => t.main == 7 && t.aux == noPin) = true := by decide

/-- V3, V5, V8, V11, V13. -/
theorem test_bind_fails :
    shows (exec (.bind 32) common) .cc [.resp .cc .invalidPin 0] 0x10000000 (fun t => t.main == noPin) = true ∧
      shows (exec (.bind 7) taken7) .cc [.acq 7 false, .resp .cc .resourceUnavailable 0] 0x40000000
        (fun t => (t.pin 7).owner == .other) = true ∧
      shows (exec (.bind 32) bound17) .cc [.resp .cc .alreadyBound 0] 0x20000000 (fun t => t.main == 17) = true ∧
      shows (exec (.bind 4) { common with cfgAuxPin := 4 }) .cc
        [.acq 4 true, .acq 4 false, .rel 4, .resp .cc .resourceUnavailable 0] 0x40000000
        (fun t => (t.pin 4).owner == .free && t.main == noPin) = true ∧
      shows (exec (.bind 7) { common with cfgAuxPin := 4, cfgCap := true, answers := [.error] }) .cc
        [.acq 7 true, .acq 4 true, .dirOut 4 0, .dirIn 7, .reg 0b111 .error, .rel 4, .rel 7,
          .resp .cc .registrationFailed 0] 0x50000000
        (fun t => t.main == noPin && t.pwr == 0 && (t.pin 7).owner == .free) = true := by decide

/-- V15; program 3, step 10. -/
theorem test_unbind_releases :
    shows (exec .unbind bound17) .cc [.dereg 1, .rel 17, .resp .cc .ok 0] 0
        (fun t => t.main == noPin && t.handle == none && (t.pin 17).owner == .free) = true ∧
      shows (exec .unbind withAux) .cc [.cap 0, .set 4 0, .dereg 1, .rel 17, .rel 4, .resp .cc .ok 0] 0
        (fun t => t.pwr == 0 && t.aux == noPin && t.pin 4 == ⟨.free, .output, 0, false⟩) = true := by decide

/-- V14, V18. -/
theorem test_unbind_unbound_or_held :
    shows (exec .unbind common) .cc [.resp .cc .notBound 0] 0x30000000 (fun _ => true) = true ∧
      after (exec .unbind hold17) (fun t => t == hold17) = true := by decide

/-- V16, V17, V19. -/
theorem test_querypin :
    shows (exec .querypin common) .cc [.resp .cc .ok 0xFFFFFF] 0x00FFFFFF (fun _ => true) = true ∧
      shows (exec .querypin { bound17 with main := 0 }) .cc [.resp .cc .ok 0] 0 (fun _ => true) = true ∧
      shows (exec .querypin hold17) .cc [.resp .cc .ok 17] 0x11 (fun t => t.seq == .puHold) = true := by decide

/-! ### Bit Transfer (2.4) -/

/-- B1, B2, B5. -/
theorem test_readBit :
    shows (exec .readBit bound17) .bt [.get 17 1, .resp .bt .ok 1] 1 (fun t => t.pins == bound17.pins) = true ∧
      shows (exec .readBit { bound17 with pins := [(17, ⟨.self, .input, 0, true⟩)] }) .bt
        [.get 17 0, .resp .bt .ok 0] 0 (fun _ => true) = true ∧
      shows (exec .readBit { bound17 with pins := [(17, ⟨.self, .output, 0, false⟩)] }) .bt
        [.get 17 0, .resp .bt .ok 0] 0 (fun _ => true) = true := by decide

/-- B3 and B11: what a floating line and a contention read is the free value; B11 with an open-drain pad reads 0. -/
theorem test_readBit_draws :
    lineLevel { bound17 with board := { Board.confA with pullupPresent := false } } 17 = none ∧
      lineLevel { driven9 with pins := [(9, ⟨.self, .output, 1, true⟩)] } 9 = none ∧
      lineLevel { driven9 with pins := [(9, ⟨.self, .output, 1, true⟩)], board := { Board.confA with padOd := true } } 9 =
        some 0 := by decide

/-- B4, B8. -/
theorem test_writeBit_open_drain :
    shows (exec (.writeBit 0) bound17) .bt [.dirOut 17 0, .resp .bt .ok 0] 0
        (fun t => t.pin 17 == ⟨.self, .output, 0, false⟩) = true ∧
      shows (exec (.writeBit 1) bound17) .bt [.dirIn 17, .resp .bt .ok 0] 0 (fun t => t.pins == bound17.pins) = true := by
  decide

/-- B9, B10. -/
theorem test_writeBit_driven :
    shows (exec (.writeBit 0) driven9) .bt [.set 9 0, .resp .bt .ok 0] 0
        (fun t => t.pin 9 == ⟨.self, .output, 0, false⟩) = true ∧
      shows (exec (.writeBit 1) { driven9 with pins := [(9, ⟨.self, .output, 0, false⟩)] }) .bt
        [.set 9 1, .resp .bt .ok 0] 0 (fun t => t.pin 9 == ⟨.self, .output, 1, false⟩) = true := by decide

/-- B12, B14, B17. -/
theorem test_setPullup :
    shows (exec (.setPullup 750) bound17) .bt [.resp .bt .ok 0] 0 (fun t => t.pend == 750 && t.seq == .idle) = true ∧
      after (exec (.setPullup 0) { armed17 with bt := ⟨some 0x22000000#32, none⟩ })
        (fun t => t == { hold17 with trace := [.dirOut 17 1, .wait 100] }) = true ∧
      shows (exec (.setPullup 0) bound17) .bt [.resp .bt .ok 0] 0 (fun t => t.pins == bound17.pins) = true := by decide

/-- Program 4, steps 7 and 8; R126. -/
theorem test_setPullup_without_effect :
    shows (exec (.setPullup 750) driven9) .bt [.resp .bt .ok 0] 0 (fun t => t.pend == 0) = true ∧
      shows (exec (.setPullup 0) driven9) .bt [.resp .bt .ok 0] 0 (fun t => t.seq == .idle) = true ∧
      shows (exec (.setPullup 750) common) .bt [.resp .bt .ok 0] 0 (fun t => t.pend == 0) = true := by decide

/-- B15, at the 100th TICK and not before. -/
theorem test_puExpire :
    puExpire { hold17 with elapsed := 99 } = { hold17 with elapsed := 99 } ∧
      shows (.next (puExpire { hold17 with elapsed := 100 })) .bt [.dirIn 17, .resp .bt .ok 0] 0
        (fun t => t.pend == 0 && t.seq == .idle && t.pin 17 == ⟨.self, .input, 1, false⟩) = true := by decide

/-! ### Power Hooks (2.5) -/

/-- P1; program 2, step 4. -/
theorem test_suspend :
    shows (exec .suspend withAux) .pm [.cap 0, .resp .pm .ok 0] 0 (fun t => t.pwr == 0 && t.main == 17) = true ∧
      shows (exec .suspend hold17) .pm [.resp .pm .ok 0] 0 (fun t => t.seq == .puHold) = true := by decide

/-- P3, P8. -/
theorem test_resume :
    shows (exec .resume { withAux with pwr := 0 }) .pm [.cap 1, .resp .pm .ok 0] 0 (fun t => t.pwr == 1) = true ∧
      shows (exec .resume { common with cfgCap := true }) .pm [.resp .pm .ok 0] 0 (fun t => t.pwr == 0) = true := by
  decide

/-! ### Platform (2.6) -/

/-- T1 without aux pin and capability, T2, T3. -/
theorem test_teardown :
    after (serveTeardown { bound17 with teardown := true })
        (fun t => t.trace == [.dereg 1, .rel 17] && t.main == noPin && t.teardown == false) = true ∧
      after (serveTeardown { common with teardown := true }) (fun t => t == common) = true ∧
      after (serveTeardown { hold17 with teardown := true }) (fun t => t == { hold17 with teardown := true }) = true := by
  decide

/-- T4 to T7; program 4, step 0. -/
theorem test_startup :
    bootState Board.confA Descriptor.confA [] [] = State.reset ∧
      (bootState Board.confA ⟨9, noPin, .drv, false⟩ [] [.ok 7]).trace =
        [.acq 9 true, .dirOut 9 1, .reg 0b011 (.ok 7)] ∧
      (bootState Board.confA ⟨9, noPin, .drv, false⟩ [] [.ok 7]).handle = some 7 ∧
      (bootState Board.confA ⟨40, noPin, .drv, false⟩ [] []).boot = 1 ∧
      (bootState Board.confA ⟨9, noPin, .drv, false⟩ [(9, ⟨.other, .input, 0, false⟩)] []).boot = 4 ∧
      (bootState Board.confA ⟨9, noPin, .drv, false⟩ [] [.error]).boot = 5 := by decide

/-- The reset values of R231 and R41, under the straps of configuration A. -/
theorem test_reset_state :
    State.reset.main = noPin ∧ State.reset.aux = noPin ∧ State.reset.mode = .od ∧ State.reset.pend = 0 ∧
      State.reset.handle = none ∧ State.reset.pwr = 0 ∧ State.reset.seq = .idle ∧ State.reset.boot = 0 ∧
      State.reset.trace = [] ∧ State.reset.atRest = true := by decide

/-- A placed word runs as the first command after reset. -/
theorem test_a_placed_word_runs :
    after (step (State.reset.withFetchWord 32 0x12000000)) (fun t => t.trace == [.resp .cc .ok 0xFFFFFF]) = true := by
  decide

/-! ### Witnesses: states that meet the hypotheses of each obligation -/

theorem inv_common : common.Inv := by constructor <;> decide

theorem inv_bound17 : bound17.Inv := by constructor <;> decide

theorem inv_withAux : withAux.Inv := by constructor <;> decide

theorem inv_driven9 : driven9.Inv := by constructor <;> decide

theorem inv_hold17 : hold17.Inv := by constructor <;> decide

/-- A row of the table that is SELF is one of the rows listed. -/
theorem only_listed_rows {m : Memory} {a : Nat} (h : (Memory.read m a).owner = .self) : a ∈ m.map Prod.fst := by
  induction m with
  | nil => simp [Memory.read, Pin.unlisted] at h
  | cons e rest ih =>
    unfold Memory.read at h
    split at h
    · next he => simp [he]
    · exact List.mem_cons_of_mem _ (ih h)

theorem owns_bound17 : bound17.ownsOnlyBound := by
  intro p h
  have := only_listed_rows h
  have hp : p = 17 := BitVec.eq_of_toNat_eq (by simpa [bound17] using this)
  subst hp
  decide

theorem witness_EveryLegalWordIsAnEncoding : decode .cc 0x10FFFFFF#32 = .ok (.bind noPin) := by decide

theorem witness_DecodingFollowsTheOpcodeMap : decode .bt 0x22FFFFFF#32 = .ok (.setPullup 0xFFFFFF) := by decide

/-- Both clauses, the first on the port that waits and on one that does not. -/
theorem witness_StepRunsTheDecodedCommand :
    (∃ s : State, s.agenda = [.serve .cc] ∧ (s.port .cc).req = some 0x11000000#32 ∧
      decode .cc 0x11000000#32 = .ok .unbind) ∧
    (∃ s : State, s.agenda = [.serve .bt] ∧ (s.port .bt).req = some 0x22000000#32 ∧ s.seq = .puHold ∧
      decode .bt 0x22000000#32 = .ok (.setPullup 0)) ∧
    (State.reset.seq = .idle ∧ decode (Instr.port .resume) 0x31000000#32 = .ok .resume) :=
  ⟨⟨{ bound17 with cc := ⟨some 0x11000000#32, none⟩, agenda := [.serve .cc] }, by decide⟩,
    ⟨{ hold17 with agenda := [.serve .bt] }, by decide⟩, by decide⟩

theorem witness_IllegalWordIsAnswered :
    ∃ s : State, s.agenda = [.serve .cc] ∧ (s.port .cc).req = some 0x21000001#32 ∧
      ∀ r ∈ opcodeMap, r.selects .cc 0x21000001#32 = false :=
  ⟨{ hold17 with cc := ⟨some 0x21000001#32, none⟩, agenda := [.serve .cc] }, by decide⟩

theorem witness_OneRequestPerPort : (common.port .cc).req = none ∧ (hold17.port .bt).req ≠ none := by decide

theorem witness_AcquireTakesOnlyAFreePin :
    (common.pin 31).owner = .free ∧ (taken7.pin 7).owner ≠ .free ∧ (bound17.pin 17).owner ≠ .free := by decide

/-- A pin's row for each of the seven clauses. -/
theorem witness_LineLevelIsTheSpecs :
    (∃ s : State, (s.pin 9).dir = .output ∧ (s.pin 9).out = 0) ∧
    ((driven9.pin 9).dir = .output ∧ (driven9.pin 9).out = 1 ∧ (driven9.pin 9).extLow = false) ∧
    (∃ s : State, (s.pin 9).dir = .output ∧ (s.pin 9).out = 1 ∧ (s.pin 9).extLow = true ∧ s.board.padOd = true) ∧
    (∃ s : State, (s.pin 9).dir = .output ∧ (s.pin 9).out = 1 ∧ (s.pin 9).extLow = true ∧ s.board.padOd = false) ∧
    (∃ s : State, (s.pin 9).dir = .input ∧ (s.pin 9).extLow = true) ∧
    ((bound17.pin 17).dir = .input ∧ (bound17.pin 17).extLow = false ∧ pullupEff bound17 17 = true) ∧
    ((bound17.pin 5).dir = .input ∧ (bound17.pin 5).extLow = false ∧ pullupEff bound17 5 = false) :=
  ⟨⟨{ driven9 with pins := [(9, ⟨.self, .output, 0, false⟩)] }, by decide⟩, by decide,
    ⟨{ driven9 with pins := [(9, ⟨.self, .output, 1, true⟩)], board := { Board.confA with padOd := true } }, by decide⟩,
    ⟨{ driven9 with pins := [(9, ⟨.self, .output, 1, true⟩)] }, by decide⟩,
    ⟨{ driven9 with pins := [(9, ⟨.self, .input, 0, true⟩)] }, by decide⟩, by decide, by decide⟩

/-- Unbound; bound with a level; bound with none. -/
theorem witness_ReadBitAnswersTheLevel :
    common.main = noPin ∧ (bound17.main ≠ noPin ∧ lineLevel bound17 17 = some 1) ∧
      ∃ s : State, s.main ≠ noPin ∧ lineLevel s s.main = none :=
  ⟨by decide, by decide, { withAux with pwr := 0 }, by decide⟩

theorem witness_WriteBitFollowsTheMode :
    common.main = noPin ∧ (driven9.main ≠ noPin ∧ driven9.mode = .drv) ∧ (bound17.main ≠ noPin ∧ bound17.mode = .od) ∧
      (1 : Bit) ≠ 0 := by decide

theorem witness_ArmStoresTheDuration :
    bound17.main ≠ noPin ∧ bound17.mode = .od ∧ (1 : Duration) ≠ 0 ∧ (0xFFFFFF : Duration) ≠ 0 := by decide

theorem witness_FireStartsTheHold :
    (bound17.main ≠ noPin ∧ bound17.mode = .od ∧ bound17.pend = 0) ∧
      (armed17.main ≠ noPin ∧ armed17.mode = .od ∧ armed17.pend ≠ 0) := by decide

/-- At the 100th TICK, at the 99th, and outside a hold. -/
theorem witness_ExpireEndsTheHold :
    (∃ s : State, s.seq = .puHold ∧ s.pend.toNat ≤ s.elapsed) ∧ (∃ s : State, s.elapsed < s.pend.toNat) ∧
      bound17.seq = .idle :=
  ⟨⟨{ hold17 with elapsed := 100 }, by decide⟩, ⟨{ hold17 with elapsed := 99 }, by decide⟩, by decide⟩

theorem witness_UnboundTransfersAreNeutral :
    common.main = noPin ∧ Instr.port .readBit = .bt ∧ Instr.port (.writeBit 1) = .bt ∧
      Instr.port (.setPullup 750) = .bt := by decide

theorem witness_DrivenModeHasNoPullup : driven9.main ≠ noPin ∧ driven9.mode = .drv := by decide

theorem witness_StrongPullupTwoPhases :
    bound17.main ≠ noPin ∧ bound17.mode = .od ∧ bound17.seq = .idle ∧ (1 : Duration) ≠ 0 := by decide

theorem witness_TransfersNeverReportAnError :
    Instr.port .readBit = .bt ∧ Instr.port (.writeBit 0) = .bt ∧ Instr.port (.setPullup 0) = .bt := by decide

theorem witness_WritesIgnorePowerAndRegistration :
    (∃ v, Instr.writeBit 0 = .writeBit v) ∧ ∃ d, Instr.setPullup 750 = .setPullup d := ⟨⟨0, rfl⟩, ⟨750, rfl⟩⟩

/-- With a 1 to write, and the pull-up through the aux pin and the capability. -/
theorem witness_OpenDrainReadsBackWhatWasWritten :
    withAux.main ≠ noPin ∧ withAux.mode = .od ∧
      ((1 : Bit) = 1 → pullupEff withAux withAux.main = true ∧ (withAux.pin withAux.main).extLow = false ∧
        withAux.aux ≠ withAux.main) := by decide

theorem witness_BindWhileBoundFails : bound17.main ≠ noPin ∧ hold17.main ≠ noPin := by decide

/-- The first illegal id, and NONE. -/
theorem witness_BindOfNoPinFails :
    common.main = noPin ∧ common.board.npins.toNat ≤ (32 : PinId).toNat ∧ ¬common.board.npins.toNat ≤ (31 : PinId).toNat ∧
      noPin = noPin := by decide

theorem witness_BindOfAHeldPinFails :
    taken7.main = noPin ∧ pinValid taken7 7 = true ∧ (taken7.pin 7).owner ≠ .free := by decide

/-- The aux pin held by another owner, and the aux pin that is the main pin. -/
theorem witness_AuxFailureRollsBack :
    (∃ s : State, s.main = noPin ∧ pinValid s 17 = true ∧ (s.pin 17).owner = .free ∧ s.cfgAuxPin ≠ noPin ∧
      pinValid s s.cfgAuxPin = true ∧ (s.pin s.cfgAuxPin).owner ≠ .free) ∧
    ∃ s : State, s.main = noPin ∧ pinValid s 4 = true ∧ (s.pin 4).owner = .free ∧ s.cfgAuxPin ≠ noPin ∧
      pinValid s s.cfgAuxPin = true ∧ s.cfgAuxPin = 4 :=
  ⟨⟨{ taken7 with cfgAuxPin := 7 }, by decide⟩, ⟨{ common with cfgAuxPin := 4 }, by decide⟩⟩

/-- With no aux pin in open-drain mode, and with one in driven mode. -/
theorem witness_BindSucceeds :
    (common.main = noPin ∧ pinValid common 31 = true ∧ (common.pin 31).owner = .free ∧ common.answers = [.ok 1, .ok 2] ∧
      noPin = (if common.cfgAuxPin ≠ noPin ∧ pinValid common common.cfgAuxPin = true then common.cfgAuxPin else noPin) ∧
      common.cfgMode = .od) ∧
    ∃ s : State, s.main = noPin ∧ pinValid s 7 = true ∧ (s.pin 7).owner = .free ∧ s.answers = [.ok 1, .ok 2] ∧
      4 = (if s.cfgAuxPin ≠ noPin ∧ pinValid s s.cfgAuxPin = true then s.cfgAuxPin else noPin) ∧ s.cfgMode = .drv ∧
      (4 : PinId) ≠ noPin ∧ (4 : PinId) ≠ 7 ∧ (s.pin 4).owner = .free :=
  ⟨by decide, { common with cfgAuxPin := 4, cfgMode := .drv, cfgCap := true }, by decide⟩

theorem witness_RegistrationFailureRollsBack :
    ∃ s : State, s.main = noPin ∧ pinValid s 7 = true ∧ (s.pin 7).owner = .free ∧ s.answers = [.error] ∧
      4 = (if s.cfgAuxPin ≠ noPin ∧ pinValid s s.cfgAuxPin = true then s.cfgAuxPin else noPin) ∧
      (4 : PinId) ≠ 7 ∧ (s.pin 4).owner = .free :=
  ⟨{ common with cfgAuxPin := 4, answers := [.error] }, by decide⟩

theorem witness_QueryReturnsTheBoundPin : ∃ t, exec (.bind 17) common = .next t ∧ answered .cc .ok 0 t :=
  ⟨_, rfl, rfl⟩

theorem witness_UnbindWhileUnboundFails : common.main = noPin := by decide

/-- With no aux pin, and with one. -/
theorem witness_UnbindReleasesTheBinding :
    (bound17.main ≠ noPin ∧ bound17.seq = .idle ∧ bound17.handle = some 1 ∧ bound17.aux ≠ bound17.main) ∧
      (withAux.main ≠ noPin ∧ withAux.seq = .idle ∧ withAux.handle = some 1 ∧ withAux.aux ≠ withAux.main ∧
        withAux.aux ≠ noPin) := by decide

theorem witness_HoldHoldsUnbindAndTeardown :
    hold17.main ≠ noPin ∧ hold17.seq = .puHold ∧ Instr.port .suspend ≠ .bt ∧ Instr.suspend ≠ .unbind := by decide

/-- In a hold; bound and idle; unbound. -/
theorem witness_TeardownIsHwExitIfBound :
    (∃ s : State, s.teardown = true ∧ s.main ≠ noPin ∧ s.seq = .puHold) ∧
    (∃ s : State, s.teardown = true ∧ s.main ≠ noPin ∧ s.seq = .idle) ∧
    ∃ s : State, s.teardown = true ∧ s.main = noPin ∧ s.seq = .idle :=
  ⟨⟨{ hold17 with teardown := true }, by decide⟩, ⟨{ withAux with teardown := true }, by decide⟩,
    ⟨{ common with teardown := true }, by decide⟩⟩

theorem witness_HwExitUnboundIsRefused : common.main = noPin := by decide

theorem witness_UnbindUndoesBind : common.Inv ∧ ∃ t, exec (.bind 17) common = .next t ∧ answered .cc .ok 0 t :=
  ⟨inv_common, _, rfl, rfl⟩

theorem witness_RebindReleasesTheOldPin :
    bound17.Inv ∧ bound17.main ≠ noPin ∧ bound17.seq = .idle ∧ pinValid bound17 5 = true ∧
      (bound17.pin 5).owner = .free ∧ bound17.answers = [.ok 2] := ⟨inv_bound17, by decide⟩

/-- With the capability, both hooks; and without. -/
theorem witness_HooksSwitchTheCapability :
    (withAux.cfgCap = true ∧ withAux.main ≠ noPin) ∧ (bound17.cfgCap = false ∧ bound17.main ≠ noPin) ∧
      ∃ s : State, s.cfgCap = true ∧ s.main = noPin ∧ s.seq = .idle :=
  ⟨by decide, by decide, { common with cfgCap := true }, by decide⟩

theorem witness_ResumeRestoresPower :
    (withAux.cfgCap = true → withAux.main ≠ noPin → withAux.pwr = 1) ∧
      (bound17.cfgCap = true → bound17.main ≠ noPin → bound17.pwr = 1) := by decide

theorem witness_ResetWithoutStaticPin : Descriptor.confA.mainPin = noPin := by decide

theorem witness_StartupIsABind : (Descriptor.mk 9 noPin .drv false).mainPin ≠ noPin := by decide

theorem witness_StepKeepsTheInvariants :
    ∃ s t : State, s.Inv ∧ s.agenda = [] ∧ s.seq = .puHold ∧ step s = .next t := ⟨hold17, _, inv_hold17, by decide, by decide, rfl⟩

/-- A RESET while unbound, and a step that is no RESET while bound. -/
theorem witness_StepKeepsExclusiveOwnership :
    (bound17.Inv ∧ bound17.ownsOnlyBound ∧ (bound17.nextIsReset = true → bound17.main = noPin) ∧
      ∃ t, step bound17 = .next t) ∧
    ∃ s : State, s.Inv ∧ s.ownsOnlyBound ∧ s.nextIsReset = true ∧ s.main = noPin ∧ ∃ t, step s = .next t := by
  refine ⟨⟨inv_bound17, owns_bound17, by decide, _, rfl⟩, { common with agenda := [.reset Descriptor.confA] },
    by constructor <;> decide, ?_, by decide, by decide, _, rfl⟩
  intro p h
  have := only_listed_rows h
  simp [common, State.powerOn] at this

theorem witness_TraceIsOnlyAppendedTo : hold17.nextIsReset = false ∧ ∃ t, step hold17 = .next t := ⟨by decide, _, rfl⟩

/-- A move of each kind that makes a next state, one of them a change of the binding. -/
theorem witness_RightsOfTheRequesters :
    (∃ t, perform (.serve .bt) bound17 = .next t) ∧ (∃ t, perform (.serve .pm) withAux = .next t) ∧
    ∃ s t : State, perform (.serve .cc) s = .next t ∧ ¬keepsBinding s t :=
  ⟨⟨_, rfl⟩, ⟨_, rfl⟩, { common with cc := ⟨some 0x10000011#32, none⟩ }, _, rfl, by unfold keepsBinding; decide⟩

/-- U to B, B to U by UNBIND and by TEARDOWN, B to H, H to B. -/
theorem witness_ControlTransitions :
    (∃ s t : State, s.Inv ∧ perform (.serve .cc) s = .next t ∧ s.control = .unbound ∧ t.control = .bound) ∧
    (∃ s t : State, s.Inv ∧ perform (.serve .cc) s = .next t ∧ s.control = .bound ∧ t.control = .unbound) ∧
    (∃ s t : State, s.Inv ∧ perform .serveTeardown s = .next t ∧ s.control = .bound ∧ t.control = .unbound) ∧
    (∃ s t : State, s.Inv ∧ perform (.serve .bt) s = .next t ∧ s.control = .bound ∧ t.control = .hold) ∧
    ∃ s t : State, s.Inv ∧ perform .puExpire s = .next t ∧ s.control = .hold ∧ t.control = .bound :=
  ⟨⟨{ common with cc := ⟨some 0x10000011#32, none⟩ }, _, by constructor <;> decide, rfl, by decide, by decide⟩,
    ⟨{ bound17 with cc := ⟨some 0x11000000#32, none⟩ }, _, by constructor <;> decide, rfl, by decide, by decide⟩,
    ⟨{ bound17 with teardown := true }, _, by constructor <;> decide, rfl, by decide, by decide⟩,
    ⟨{ armed17 with bt := ⟨some 0x22000000#32, none⟩ }, _, by constructor <;> decide, rfl, by decide, by decide⟩,
    ⟨{ hold17 with elapsed := 100 }, _, by constructor <;> decide, rfl, by decide, by decide⟩⟩

/-- A TICK, and the end of the hold at its 100th TICK. -/
theorem witness_HoldIsTimedAndUndisturbed :
    (hold17.Inv ∧ hold17.seq = .puHold ∧ (∀ d, Move.tick ≠ .reset d) ∧ ∃ t, perform .tick hold17 = .next t) ∧
    ∃ s t : State, s.Inv ∧ s.seq = .puHold ∧ (∀ d, Move.puExpire ≠ .reset d) ∧ perform .puExpire s = .next t ∧
      t.seq = .idle :=
  ⟨⟨inv_hold17, by decide, nofun, _, rfl⟩,
    { hold17 with elapsed := 100 }, _, by constructor <;> decide, by decide, nofun, rfl, by decide⟩

/-- A move that is made, a pin of another user, a free pin, and an id just out of range. -/
theorem witness_EnvironmentLeavesHeldPinsAlone :
    (∃ t, perform (.envLine 17 true) bound17 = .next t ∧ (bound17.pin 17).owner = .self) ∧
      (taken7.pin 7).owner ≠ .free ∧ (taken7.pin 31).owner ≠ .other ∧ pinValid bound17 32 = false :=
  ⟨⟨_, rfl, by decide⟩, by decide⟩

/-- R73 on the block's pin 17 (spec/95_test_vectors.md, S4: an acquisition elsewhere succeeds only after the UNBIND). -/
theorem test_env_acquire_of_held_pin_fails : perform (.envAcquire 17) bound17 = .next bound17 := rfl

theorem witness_EnvironmentMovesTakeEffect :
    (pinValid taken7 31 = true ∧ (taken7.pin 31).owner = .free) ∧
      (pinValid taken7 7 = true ∧ (taken7.pin 7).owner = .other) := by decide

/-- In a hold, with an UNBIND, a SUSPEND and a TEARDOWN waiting. -/
theorem witness_LeftAloneTheMachineComesToRest :
    ∃ s : State, s.agenda = [] ∧ s.seq = .puHold ∧ s.cc.req = some 0x11000000#32 ∧ s.pm.req = some 0x30000000#32 ∧
      s.teardown = true ∧ s.pendingWork = 104 :=
  ⟨{ hold17 with cc := ⟨some 0x11000000#32, none⟩, pm := ⟨some 0x30000000#32, none⟩, teardown := true }, by decide⟩

end Sys2Proof.Machine.Tests
end

section
/-! SUPPORT. A word that decodes is the command's encoding (spec/30_encoding.md R91 to R99), port by port. -/

namespace Sys2Proof

theorem noOperand_eq_ok {arg : BitVec 24} {i j : Instr} (h : noOperand arg i = .ok j) : arg = 0 ∧ i = j := by
  unfold noOperand at h
  split at h
  · next ha => exact ⟨ha, by cases h; rfl⟩
  · cases h

/-- A 24-bit operand whose bits 23:1 are 0 is its bit 0, extended (R97). -/
theorem setWidth_bit_zero {arg : BitVec 24} (h : arg.extractLsb' 1 23 = 0) :
    (arg.extractLsb' 0 1).setWidth 24 = arg := by
  apply BitVec.eq_of_toNat_eq
  have h0 := congrArg BitVec.toNat h
  simp [BitVec.extractLsb'_toNat, Nat.shiftRight_eq_div_pow] at h0 ⊢
  omega

theorem writeBitOperand_eq_ok {arg : BitVec 24} {j : Instr} (h : writeBitOperand arg = .ok j) :
    ∃ v : Bit, j = .writeBit v ∧ v.setWidth 24 = arg := by
  unfold writeBitOperand at h
  split at h
  · next ha => exact ⟨_, by cases h; rfl, setWidth_bit_zero ha⟩
  · cases h

theorem fields_of_decodeCc {fn : BitVec 4} {arg : BitVec 24} {i : Instr} (h : decodeCc fn arg = .ok i) :
    i.opcode = PortId.cls .cc ++ fn ∧ i.operand = arg := by
  unfold decodeCc at h
  split_ifs at h with h0 h1 h2
  · cases h; subst h0; exact ⟨rfl, rfl⟩
  · obtain ⟨rfl, rfl⟩ := noOperand_eq_ok h; subst h1; exact ⟨rfl, rfl⟩
  · obtain ⟨rfl, rfl⟩ := noOperand_eq_ok h; subst h2; exact ⟨rfl, rfl⟩

theorem fields_of_decodeBt {fn : BitVec 4} {arg : BitVec 24} {i : Instr} (h : decodeBt fn arg = .ok i) :
    i.opcode = PortId.cls .bt ++ fn ∧ i.operand = arg := by
  unfold decodeBt at h
  split_ifs at h with h0 h1 h2
  · obtain ⟨rfl, rfl⟩ := noOperand_eq_ok h; subst h0; exact ⟨rfl, rfl⟩
  · obtain ⟨v, rfl, hv⟩ := writeBitOperand_eq_ok h; subst h1; exact ⟨rfl, hv⟩
  · cases h; subst h2; exact ⟨rfl, rfl⟩

theorem fields_of_decodePm {fn : BitVec 4} {arg : BitVec 24} {i : Instr} (h : decodePm fn arg = .ok i) :
    i.opcode = PortId.cls .pm ++ fn ∧ i.operand = arg := by
  unfold decodePm at h
  split_ifs at h with h0 h1
  · obtain ⟨rfl, rfl⟩ := noOperand_eq_ok h; subst h0; exact ⟨rfl, rfl⟩
  · obtain ⟨rfl, rfl⟩ := noOperand_eq_ok h; subst h1; exact ⟨rfl, rfl⟩

/-- What a word that decodes has in its three fields (R91). -/
theorem fields_of_decode {p : PortId} {w : Word} {i : Instr} (h : decode p w = .ok i) :
    i.opcode = clsField w ++ fnField w ∧ i.operand = argField w := by
  unfold decode at h
  split at h
  · cases h
  · next q hq =>
    split at h
    · next hqp =>
      subst hqp
      rw [portOfCls_eq_some.1 hq]
      cases q
      · exact fields_of_decodeCc h
      · exact fields_of_decodeBt h
      · exact fields_of_decodePm h
    · cases h

/-- A word that decodes is the command's encoding (R95). -/
theorem encode_of_decode {p : PortId} {w : Word} {i : Instr} (h : decode p w = .ok i) : encode i = w := by
  obtain ⟨hop, harg⟩ := fields_of_decode h
  rw [encode, hop, harg]
  exact (word_eq_fields w).symm

end Sys2Proof
end

section
/-! SUPPORT. What one move can do, said once for every move: an effect on the registers and the pins, then an ending
that does not touch them. -/

namespace Sys2Proof.Machine

/-- The end of a hold before the SET_PULLUP is answered (R125). -/
def holdEnded (s : State) : State := { pinDirIn s.main s with pend := 0, seq := .idle, elapsed := 0 }

theorem endHold_eq (s : State) : endHold s = respond .bt .ok 0 (holdEnded s) := rfl

/-- What a move does to registers and pins, under the condition on which it does so. -/
inductive MoveEffect : Move → State → State → Prop where
  | nothing (m : Move) (s : State) : MoveEffect m s s
  | readMain {s : State} : s.main ≠ noPin → MoveEffect (.serve .bt) s (pinGet s.main s).2
  | writeMain {s : State} (v : Bit) : s.main ≠ noPin → s.seq = .idle → MoveEffect (.serve .bt) s (writeMain v s)
  | arm {s : State} (d : Duration) : s.main ≠ noPin → s.mode = .od → s.seq = .idle →
      MoveEffect (.serve .bt) s { s with pend := d }
  | fire {s : State} : s.main ≠ noPin → s.mode = .od → s.seq = .idle → s.pend ≠ 0 →
      s.bt.req = some (encode (.setPullup 0)) → MoveEffect (.serve .bt) s (startHold s)
  | expire {s : State} : s.seq = .puHold → s.pend.toNat ≤ s.elapsed → MoveEffect .puExpire s (holdEnded s)
  | tick {s : State} : s.seq = .puHold → MoveEffect .tick s { s with elapsed := s.elapsed + 1 }
  | hook {s : State} (v : Bit) : s.cfgCap = true → s.main ≠ noPin → MoveEffect (.serve .pm) s (capSet v s)
  | bind {s : State} (p : PinId) : s.cc.req = some (encode (.bind p)) →
      MoveEffect (.serve .cc) s (hwInit p s.cfgAuxPin s.cfgMode s).2
  | exit {m : Move} {s : State} : s.main ≠ noPin → s.seq = .idle →
      (m = .serve .cc ∧ s.cc.req = some (encode .unbind)) ∨ (m = .serveTeardown ∧ s.teardown = true) →
      MoveEffect m s (hwExitSteps s)
  | env {m : Move} {s : State} (p : PinId) (r : Pin) : m.isEnv → pinValid s p = true →
      ((s.pin p).owner ≠ .self ∧ r.owner ≠ .self) ∨
        (r.owner = (s.pin p).owner ∧ r.dir = (s.pin p).dir ∧ r.out = (s.pin p).out) →
      MoveEffect m s (s.writePin p r)
  | reset (d : Descriptor) (s : State) : MoveEffect (.reset d) s (performReset d s)

/-- How a move ends: on a port, on the TEARDOWN signal, or silently. On BT, nothing but an illegal word is answered in
a hold (R82, R100). -/
inductive MoveEnding : State → State → Prop where
  | silent (u : State) : MoveEnding u u
  | answer {u : State} (p : PortId) (st : Status) (v : Value) :
      (p = .bt → u.seq = .puHold → ∃ w e, u.bt.req = some w ∧ decode .bt w = .error e) →
      MoveEnding u (respond p st v u)
  | issue {u : State} (p : PortId) (w : Word) : (u.port p).req = none → MoveEnding u (u.setPort p ⟨some w, none⟩)
  | signal (u : State) (b : Bool) : MoveEnding u { u with teardown := b }

theorem pinGet_cases (p : PinId) (s : State) : ∃ v n, (pinGet p s).2 = { s with draws := n }.emit (.get p v) := by
  cases h : lineLevel s p with
  | none => exact ⟨_, _, by rw [pinGet_draw h]⟩
  | some v => exact ⟨v, s.draws, by rw [pinGet_known h]⟩

@[simp] theorem pinGet_seq (p : PinId) (s : State) : (pinGet p s).2.seq = s.seq := by
  obtain ⟨v, n, h⟩ := pinGet_cases p s
  rw [h]; rfl

@[simp] theorem writeMain_seq (v : Bit) (s : State) : (writeMain v s).seq = s.seq := by
  rcases writeMain_cases v s with ⟨_, h⟩ | ⟨_, _, h⟩ | ⟨_, _, h⟩ <;> rw [h] <;> rfl

/-- An answer outside a hold is an ending, on every port. -/
theorem MoveEnding.answerIdle {u : State} (h : u.seq = .idle) (p : PortId) (st : Status) (v : Value) :
    MoveEnding u (respond p st v u) :=
  .answer p st v fun _ hq => absurd (h.symm.trans hq) (by decide)

/-- An answer on CC or PM is an ending, in a hold or not. -/
theorem MoveEnding.answerNotBt {u : State} {p : PortId} (hp : p ≠ .bt) (st : Status) (v : Value) :
    MoveEnding u (respond p st v u) :=
  .answer p st v fun h => absurd h hp

theorem unbind_effect {s t : State} (hreq : s.cc.req = some (encode .unbind)) (h : exec .unbind s = .next t) :
    ∃ u, MoveEffect (.serve .cc) s u ∧ MoveEnding u t := by
  by_cases hm : s.main = noPin
  · cases (exec_unbind_unbound hm).symm.trans h
    exact ⟨s, .nothing _ _, .answerNotBt (by decide) _ _⟩
  · rcases seq_cases s.seq with hs | hs
    · cases (exec_unbind_bound hm hs).symm.trans h
      exact ⟨_, .exit hm hs (.inl ⟨rfl, hreq⟩), .answerNotBt (by decide) _ _⟩
    · cases (exec_unbind_held hm hs).symm.trans h
      exact ⟨s, .nothing _ _, .silent _⟩

theorem readBit_effect {s t : State} (hidle : s.seq = .idle) (h : exec .readBit s = .next t) :
    ∃ u, MoveEffect (.serve .bt) s u ∧ MoveEnding u t := by
  by_cases hm : s.main = noPin
  · cases (exec_readBit_unbound hm).symm.trans h
    exact ⟨s, .nothing _ _, .answerIdle hidle _ _ _⟩
  · cases (exec_readBit_bound hm).symm.trans h
    exact ⟨_, .readMain hm, .answerIdle ((pinGet_seq _ _).trans hidle) _ _ _⟩

theorem writeBit_effect {s t : State} {v : Bit} (hidle : s.seq = .idle) (h : exec (.writeBit v) s = .next t) :
    ∃ u, MoveEffect (.serve .bt) s u ∧ MoveEnding u t := by
  by_cases hm : s.main = noPin
  · cases (exec_writeBit_unbound hm).symm.trans h
    exact ⟨s, .nothing _ _, .answerIdle hidle _ _ _⟩
  · cases (exec_writeBit_bound hm).symm.trans h
    exact ⟨_, .writeMain v hm hidle, .answerIdle ((writeMain_seq _ _).trans hidle) _ _ _⟩

theorem setPullup_effect {s t : State} {d : Duration} (hidle : s.seq = .idle)
    (hreq : s.bt.req = some (encode (.setPullup d))) (h : exec (.setPullup d) s = .next t) :
    ∃ u, MoveEffect (.serve .bt) s u ∧ MoveEnding u t := by
  rcases exec_setPullup_cases d s with he | ⟨hm, hod, _, he⟩ | ⟨hm, hod, hd, hp, he⟩
  · cases he.symm.trans h
    exact ⟨s, .nothing _ _, .answerIdle hidle _ _ _⟩
  · cases he.symm.trans h
    exact ⟨_, .arm d hm hod hidle, .answerIdle (u := { s with pend := d }) hidle _ _ _⟩
  · cases he.symm.trans h
    exact ⟨_, .fire hm hod hidle hp (hd ▸ hreq), .silent _⟩

theorem hookCap_effect (v : Bit) (s : State) : MoveEffect (.serve .pm) s (hookCap v s) := by
  by_cases hc : s.cfgCap = true ∧ s.main ≠ noPin
  · rw [hookCap_acts hc]
    exact .hook v hc.1 hc.2
  · rw [hookCap_idle hc]
    exact .nothing _ _

/-- A command in service, outside a hold if it is a bit transfer (R74, R82). -/
theorem exec_effect {i : Instr} {s t : State} (hreq : (s.port i.port).req = some (encode i))
    (hidle : i.port = .bt → s.seq = .idle) (h : exec i s = .next t) :
    ∃ u, MoveEffect (.serve i.port) s u ∧ MoveEnding u t := by
  cases i with
  | bind p =>
    cases (exec_bind p s).symm.trans h
    exact ⟨_, .bind p hreq, .answerNotBt (by decide) _ _⟩
  | unbind => exact unbind_effect hreq h
  | querypin =>
    cases (exec_querypin s).symm.trans h
    exact ⟨s, .nothing _ _, .answerNotBt (by decide) _ _⟩
  | readBit => exact readBit_effect (hidle rfl) h
  | writeBit v => exact writeBit_effect (hidle rfl) h
  | setPullup d => exact setPullup_effect (hidle rfl) hreq h
  | suspend =>
    cases (exec_suspend s).symm.trans h
    exact ⟨_, hookCap_effect 0 s, .answerNotBt (by decide) _ _⟩
  | resume =>
    cases (exec_resume s).symm.trans h
    exact ⟨_, hookCap_effect 1 s, .answerNotBt (by decide) _ _⟩

theorem portInHold_iff {s : State} {p : PortId} : s.portInHold p = true ↔ p = .bt ∧ s.seq = .puHold := by
  simp [State.portInHold, State.holding]

theorem serve_effect {p : PortId} {s t : State} (h : serve p s = .next t) :
    ∃ u, MoveEffect (.serve p) s u ∧ MoveEnding u t := by
  rcases serve_cases p s with ⟨_, he⟩ | ⟨w, e, hw, hd, he⟩ | ⟨w, i, hw, hd, he⟩
  · cases he.symm.trans h
    exact ⟨s, .nothing _ _, .silent _⟩
  · cases he.symm.trans h
    refine ⟨s, .nothing _ _, .answer p _ _ ?_⟩
    rintro rfl _
    exact ⟨w, e, hw, hd⟩
  · obtain rfl := port_of_decode hd
    rw [he] at h
    split at h
    · cases h
      exact ⟨s, .nothing _ _, .silent _⟩
    · next hhold =>
      rw [← encode_of_decode hd] at hw
      exact exec_effect hw (fun hp => (seq_cases s.seq).resolve_right fun hs => hhold (portInHold_iff.2 ⟨hp, hs⟩)) h

theorem serveTeardown_effect {s t : State} (h : serveTeardown s = .next t) :
    ∃ u, MoveEffect .serveTeardown s u ∧ MoveEnding u t := by
  cases ht : s.teardown with
  | false =>
    cases (serveTeardown_none ht).symm.trans h
    exact ⟨s, .nothing _ _, .silent _⟩
  | true =>
    by_cases hm : s.main = noPin
    · cases (serveTeardown_unbound hm).symm.trans h
      exact ⟨s, .nothing _ _, .signal _ _⟩
    · rcases seq_cases s.seq with hs | hs
      · cases (serveTeardown_bound ht hm hs).symm.trans h
        exact ⟨_, .exit hm hs (.inr ⟨rfl, ht⟩), .signal _ _⟩
      · cases (serveTeardown_held hm hs).symm.trans h
        exact ⟨s, .nothing _ _, .silent _⟩

theorem tick_effect (s : State) : MoveEffect .tick s (tick s) := by
  unfold tick
  split
  · next h => exact .tick (by simpa [State.holding] using h)
  · exact .nothing _ _

theorem puExpire_effect (s : State) : ∃ u, MoveEffect .puExpire s u ∧ MoveEnding u (puExpire s) := by
  by_cases h : s.seq = .puHold ∧ s.pend.toNat ≤ s.elapsed
  · rw [puExpire_enabled h.1 h.2, endHold_eq]
    exact ⟨_, .expire h.1 h.2, .answerIdle rfl _ _ _⟩
  · have hoff : s.seq = .idle ∨ s.elapsed < s.pend.toNat := by
      rcases seq_cases s.seq with hs | hs
      · exact .inl hs
      · exact .inr (Nat.not_le.1 fun hle => h ⟨hs, hle⟩)
    rw [puExpire_disabled hoff]
    exact ⟨s, .nothing _ _, .silent _⟩

theorem issue_ending {p : PortId} {w : Word} {s t : State} (h : issue p w s = .next t) : MoveEnding s t := by
  unfold issue at h
  split at h
  · next hr => cases h; exact .issue p w hr
  · cases h

theorem env_effect {m : Move} {s t : State} (hm : m.isEnv) (h : perform m s = .next t) : MoveEffect m s t := by
  rcases env_cases hm s with he | ⟨p, r, he, hv, hr⟩
  · cases he.symm.trans h
    exact .nothing _ _
  · cases he.symm.trans h
    exact .env p r hm hv hr

/-- A move, said once: one of the effects, then one of the endings. -/
theorem perform_effect {m : Move} {s t : State} (h : perform m s = .next t) :
    ∃ u, MoveEffect m s u ∧ MoveEnding u t := by
  cases m with
  | issue p w => exact ⟨s, .nothing _ _, issue_ending h⟩
  | serve p => exact serve_effect h
  | serveTeardown => exact serveTeardown_effect h
  | tick => cases h; exact ⟨_, tick_effect s, .silent _⟩
  | puExpire => cases h; exact puExpire_effect s
  | teardown => cases h; exact ⟨s, .nothing _ _, .signal s true⟩
  | reset d => cases h; exact ⟨_, .reset d s, .silent _⟩
  | envAcquire p => exact ⟨t, env_effect (.inl ⟨p, rfl⟩) h, .silent _⟩
  | envRelease p => exact ⟨t, env_effect (.inr (.inl ⟨p, rfl⟩)) h, .silent _⟩
  | envDrive p d v => exact ⟨t, env_effect (.inr (.inr (.inl ⟨p, d, v, rfl⟩))) h, .silent _⟩
  | envLine p low => exact ⟨t, env_effect (.inr (.inr (.inr ⟨p, low, rfl⟩))) h, .silent _⟩

/-- A step is nothing, or a move made from the same state but for what the surroundings will do; the move is a RESET
only if the agenda's next one is. -/
theorem step_move {s t : State} (h : step s = .next t) :
    t = s ∨ ∃ m l n, perform m { s with agenda := l, draws := n } = .next t ∧
      ((∃ d, m = .reset d) → s.nextIsReset = true) := by
  rcases step_cases s with ⟨m, rest, ha, he⟩ | ⟨_, _, he⟩ | ⟨m, n, _, hr, he⟩
  · refine .inr ⟨m, rest, s.draws, he.symm.trans h, ?_⟩
    rintro ⟨d, rfl⟩
    simp only [State.nextIsReset, ha]
  · cases he.symm.trans h
    exact .inl rfl
  · refine .inr ⟨m, s.agenda, n, he.symm.trans h, ?_⟩
    rintro ⟨d, rfl⟩
    exact absurd hr reset_notMem_ready

end Sys2Proof.Machine
end

section
/-! SUPPORT. The invariants of the machine (R21, R22, R26 to R28, R33, R35), effect by effect and ending by ending. -/

namespace Sys2Proof.Machine

/-- No register of the block changes but the ports', and a pin the block holds stays held with its direction and level;
no pin becomes the block's. -/
structure Undisturbed (s t : State) : Prop where
  binding : keepsBinding s t
  hold : keepsHold s t
  pwr : t.pwr = s.pwr
  straps : keepsStraps s t
  table : Memory.wf s.pins = true → Memory.wf t.pins = true
  held : ∀ q, (s.pin q).owner = .self →
    (t.pin q).owner = .self ∧ (t.pin q).dir = (s.pin q).dir ∧ (t.pin q).out = (s.pin q).out
  noneTaken : ∀ q, (t.pin q).owner = .self → (s.pin q).owner = .self

/-- With the pin table as it was, only the registers are to be compared. -/
theorem Undisturbed.of_pins {s t : State} (hb : keepsBinding s t) (hh : keepsHold s t) (hp : t.pwr = s.pwr)
    (hs : keepsStraps s t) (ht : t.pins = s.pins) : Undisturbed s t :=
  ⟨hb, hh, hp, hs, fun h => ht ▸ h, fun q h => by simp only [pin_congr ht, h, and_self],
    fun q h => by rwa [pin_congr ht] at h⟩

theorem Undisturbed.refl (s : State) : Undisturbed s s :=
  .of_pins ⟨rfl, rfl, rfl, rfl⟩ ⟨rfl, rfl, rfl⟩ rfl ⟨rfl, rfl, rfl, rfl, rfl, rfl⟩ rfl

theorem Undisturbed.inputs (s : State) (l : List Move) (n : Nat) : Undisturbed s { s with agenda := l, draws := n } :=
  { Undisturbed.refl s with }

theorem Undisturbed.pinGet (p : PinId) (s : State) : Undisturbed s (pinGet p s).2 := by
  obtain ⟨v, n, h⟩ := pinGet_cases p s
  rw [h]
  exact { Undisturbed.refl s with }

theorem Undisturbed.writePin {s : State} {p : PinId} {r : Pin}
    (hr : ((s.pin p).owner ≠ .self ∧ r.owner ≠ .self) ∨
      (r.owner = (s.pin p).owner ∧ r.dir = (s.pin p).dir ∧ r.out = (s.pin p).out)) :
    Undisturbed s (s.writePin p r) :=
  { Undisturbed.refl s with
    table := Memory.wf_write _ _
    held := fun q h => by
      rw [writePin_pin]
      split
      · next hq => subst hq; simp_all
      · exact ⟨h, rfl, rfl⟩
    noneTaken := fun q h => by
      rw [writePin_pin] at h
      split at h
      · next hq => subst hq; simp_all
      · exact h }

theorem MoveEnding.undisturbed {u t : State} (h : MoveEnding u t) : Undisturbed u t := by
  cases h with
  | silent => exact .refl u
  | answer p st v =>
    exact .of_pins (by simp [keepsBinding]) (by simp [keepsHold]) (by simp) (by simp [keepsStraps]) (by simp)
  | issue p w =>
    exact .of_pins (by simp [keepsBinding]) (by simp [keepsHold]) (by simp) (by simp [keepsStraps]) (by simp)
  | signal b => exact { Undisturbed.refl u with }

/-- What the block's own state is made of is all that the invariants speak of. -/
theorem Undisturbed.inv {s t : State} (h : Undisturbed s t) (hi : s.Inv)
    (hreq : s.seq = .puHold → t.bt.req = s.bt.req) : t.Inv := by
  obtain ⟨hmain, haux, hmode, hhandle⟩ := h.binding
  obtain ⟨hpend, hseq, helapsed⟩ := h.hold
  obtain ⟨hboot, _, hcfgAux, hcfgMode, hcfgCap, hboard⟩ := h.straps
  have mainRow := fun hm => h.held s.main (hi.mainHeld hm).2
  constructor
  case table => exact h.table hi.table
  all_goals simp only [hmain, haux, hmode, hhandle, hpend, hseq, helapsed, hboot, hcfgAux, hcfgMode, hcfgCap, h.pwr,
    pinValid_congr hboard, auxOperand_congr hboard]
  case unbound => exact hi.unbound
  case powerOff => exact hi.powerOff
  case noCap => exact hi.noCap
  case modeStrap => exact hi.modeStrap
  case drvUnarmed => exact hi.drvUnarmed
  case live => exact hi.live
  case mainHeld => exact fun hm => ⟨(hi.mainHeld hm).1, (mainRow hm).1⟩
  case auxHeld =>
    intro hx
    obtain ⟨hm, hne, hv, ho, hd⟩ := hi.auxHeld hx
    obtain ⟨ho', hd', _⟩ := h.held s.aux ho
    exact ⟨hm, hne, hv, ho', hd'.trans hd⟩
  case auxStrap => exact hi.auxStrap
  case drvOutput => exact fun hm hdrv => (mainRow hm).2.1.trans (hi.drvOutput hm hdrv)
  case odNeverHigh =>
    intro hm
    rw [(mainRow hm).2.1, (mainRow hm).2.2]
    exact hi.odNeverHigh hm
  case hold =>
    intro hs
    have hm := (hi.hold hs).1
    rw [hreq hs, (mainRow hm).2.1, (mainRow hm).2.2]
    exact hi.hold hs
  case timerIdle => exact hi.timerIdle
  case bootCode => exact hi.bootCode

/-- In a hold the SET_PULLUP stays outstanding whatever the ending (R82, R124). -/
theorem MoveEnding.keeps_held_request {u t : State} (h : MoveEnding u t) (hi : u.Inv) (hs : u.seq = .puHold) :
    t.bt.req = u.bt.req := by
  obtain ⟨_, _, _, _, _, hreq⟩ := hi.hold hs
  cases h with
  | silent => rfl
  | answer p st v hbt =>
    cases p with
    | cc => rfl
    | pm => rfl
    | bt =>
      obtain ⟨w, e, hw, hd⟩ := hbt rfl hs
      obtain rfl : encode (.setPullup 0) = w := Option.some.inj (hreq.symm.trans hw)
      exact absurd hd (by rw [show decode .bt (encode (.setPullup 0)) = .ok (.setPullup 0) by decide]; exact nofun)
  | issue p w hidle =>
    cases p with
    | cc => rfl
    | pm => rfl
    | bt => exact absurd (hreq.symm.trans hidle) nofun
  | signal b => rfl

theorem MoveEnding.inv {u t : State} (h : MoveEnding u t) (hi : u.Inv) : t.Inv :=
  h.undisturbed.inv hi (h.keeps_held_request hi)

/-! The bound block: a new row for the main pin, with new values for PEND, SEQ and the timer. -/

/-- What the invariants ask of PEND, SEQ, the timer and the row of a bound block's main pin. -/
structure MainLine (s : State) (r : Pin) (d : Duration) (q : Seq) (e : Nat) : Prop where
  owner : r.owner = .self
  drv : s.mode = .drv → d = 0 ∧ r.dir = .output
  od : s.mode = .od → q = .idle → r.dir = .input ∨ (r.dir = .output ∧ r.out = 0)
  hold : q = .puHold → s.mode = .od ∧ d ≠ 0 ∧ r.dir = .output ∧ r.out = 1 ∧ s.bt.req = some (encode (.setPullup 0))
  timer : q = .idle → e = 0

theorem State.Inv.writeMainRow {s : State} {r : Pin} {d : Duration} {q : Seq} {e : Nat} (hi : s.Inv)
    (hm : s.main ≠ noPin) (hl : MainLine s r d q e) (l : List Event) :
    State.Inv { s.writePin s.main r with pend := d, seq := q, elapsed := e, trace := l } where
  table := Memory.wf_write _ _ hi.table
  unbound h := absurd h hm
  powerOff := hi.powerOff
  noCap := hi.noCap
  modeStrap := hi.modeStrap
  drvUnarmed h := (hl.drv (hi.modeStrap.trans h)).1
  live := hi.live
  mainHeld _ := ⟨(hi.mainHeld hm).1, (congrArg Pin.owner (writePin_pin_same s s.main r)).trans hl.owner⟩
  auxHeld hx := by
    obtain ⟨_, hne, hv, ho, hd⟩ := hi.auxHeld hx
    have hrow := writePin_pin_ne s r hne
    exact ⟨hm, hne, hv, (congrArg Pin.owner hrow).trans ho, (congrArg Pin.dir hrow).trans hd⟩
  auxStrap := hi.auxStrap
  drvOutput _ h := (congrArg Pin.dir (writePin_pin_same s s.main r)).trans (hl.drv h).2
  odNeverHigh _ hod hq := by
    have hrow := hl.od hod hq
    rw [← writePin_pin_same s s.main r] at hrow
    exact hrow
  hold hq := by
    have hrow := hl.hold hq
    rw [← writePin_pin_same s s.main r] at hrow
    exact ⟨hm, hrow⟩
  timerIdle := hl.timer
  bootCode := hi.bootCode

theorem State.Inv.drv_pend {s : State} (hi : s.Inv) (h : s.mode = .drv) : s.pend = 0 :=
  hi.drvUnarmed (hi.modeStrap.symm.trans h)

theorem writeMain_inv {s : State} (hi : s.Inv) (v : Bit) (hm : s.main ≠ noPin) (hs : s.seq = .idle) :
    (writeMain v s).Inv := by
  have hown := (hi.mainHeld hm).2
  have hnohold : s.seq ≠ .puHold := by rw [hs]; exact nofun
  rcases writeMain_cases v s with ⟨hdrv, he⟩ | ⟨hod, _, he⟩ | ⟨hod, _, he⟩ <;> rw [he] <;>
    refine hi.writeMainRow hm ?_ _
  · exact ⟨hown, fun h => ⟨hi.drv_pend h, hi.drvOutput hm h⟩, fun h => absurd (hdrv.symm.trans h) nofun,
      fun h => absurd h hnohold, hi.timerIdle⟩
  · exact ⟨hown, fun h => absurd (hod.symm.trans h) nofun, fun _ _ => .inl rfl, fun h => absurd h hnohold,
      hi.timerIdle⟩
  · exact ⟨hown, fun h => absurd (hod.symm.trans h) nofun, fun _ _ => .inr ⟨rfl, rfl⟩, fun h => absurd h hnohold,
      hi.timerIdle⟩

theorem startHold_inv {s : State} (hi : s.Inv) (hm : s.main ≠ noPin) (hod : s.mode = .od) (hp : s.pend ≠ 0)
    (hreq : s.bt.req = some (encode (.setPullup 0))) : (startHold s).Inv := by
  refine hi.writeMainRow hm ?_ _
  exact ⟨(hi.mainHeld hm).2, fun h => absurd (hod.symm.trans h) nofun, fun _ => nofun,
    fun _ => ⟨hod, hp, rfl, rfl, hreq⟩, nofun⟩

theorem holdEnded_inv {s : State} (hi : s.Inv) (hs : s.seq = .puHold) : (holdEnded s).Inv := by
  obtain ⟨hm, hod, _⟩ := hi.hold hs
  refine hi.writeMainRow hm ?_ _
  exact ⟨(hi.mainHeld hm).2, fun h => absurd (hod.symm.trans h) nofun, fun _ _ => .inl rfl, nofun, fun _ => rfl⟩

theorem armed_inv {s : State} (hi : s.Inv) (hod : s.mode = .od) (hs : s.seq = .idle) (d : Duration) :
    State.Inv { s with pend := d } :=
  { hi with
    drvUnarmed := fun h => absurd (hod.symm.trans (hi.modeStrap.trans h)) nofun
    hold := fun h => absurd (hs.symm.trans h) nofun }

theorem ticked_inv {s : State} (hi : s.Inv) (hs : s.seq = .puHold) : State.Inv { s with elapsed := s.elapsed + 1 } :=
  { hi with timerIdle := fun h => absurd (hs.symm.trans h) nofun }

theorem capSet_inv {s : State} (hi : s.Inv) (v : Bit) (hc : s.cfgCap = true) (hm : s.main ≠ noPin) :
    (capSet v s).Inv :=
  { hi with
    powerOff := fun h => absurd h hm
    noCap := fun h => absurd (hc.symm.trans h) nofun }

/-! The unbound block, and the lifecycle. -/

/-- The invariants of an unbound block. -/
theorem State.Inv.of_unbound {t : State} (hm : t.main = noPin) (htable : Memory.wf t.pins = true)
    (haux : t.aux = noPin) (hhandle : t.handle = none) (hseq : t.seq = .idle) (hpwr : t.pwr = 0)
    (hmode : t.mode = t.cfgMode) (hpend : t.cfgMode = .drv → t.pend = 0) (helapsed : t.elapsed = 0)
    (hboot : t.boot = 0 ∨ t.boot = 1 ∨ t.boot = 4 ∨ t.boot = 5) : t.Inv where
  table := htable
  unbound _ := ⟨haux, hhandle, hseq⟩
  powerOff _ := hpwr
  noCap _ := hpwr
  modeStrap := hmode
  drvUnarmed := hpend
  live h := absurd hm h
  mainHeld h := absurd hm h
  auxHeld h := absurd haux h
  auxStrap h := absurd hm h
  drvOutput h := absurd hm h
  odNeverHigh h := absurd hm h
  hold h := absurd (hseq.symm.trans h) nofun
  timerIdle _ := helapsed
  bootCode := hboot

theorem RolledBack.inv {p x : PinId} {s t : State} (h : RolledBack p x s t) (hi : s.Inv) (hm : s.main = noPin) :
    t.Inv := by
  obtain ⟨hmain, haux, hmode, hhandle⟩ := h.binding
  obtain ⟨hpend, hseq, helapsed⟩ := h.hold
  obtain ⟨hboot, _, _, hcfgMode, _, _⟩ := h.straps
  obtain ⟨hx, hk, hs⟩ := hi.unbound hm
  exact .of_unbound (hmain.trans hm) (h.table hi.table) (haux.trans hx) (hhandle.trans hk) (hseq.trans hs)
    (h.pwr.trans (hi.powerOff hm)) (by rw [hmode, hcfgMode, hi.modeStrap])
    (by rw [hcfgMode, hpend]; exact hi.drvUnarmed) (helapsed.trans (hi.timerIdle hs)) (by rw [hboot]; exact hi.bootCode)

theorem Exited.inv {s t : State} (h : Exited s t) (hi : s.Inv) (hs : s.seq = .idle) : t.Inv := by
  obtain ⟨hpend, hseq, helapsed⟩ := h.hold
  obtain ⟨hboot, _, _, hcfgMode, _, _⟩ := h.straps
  have hpwr : t.pwr = 0 := by
    rw [h.pwr]
    split
    · rfl
    · next hc => exact hi.noCap (by simpa using hc)
  exact .of_unbound h.main (h.table hi.table) h.aux h.handle (hseq.trans hs) hpwr
    (by rw [h.mode, hcfgMode, hi.modeStrap]) (by rw [hcfgMode, hpend]; exact hi.drvUnarmed)
    (helapsed.trans (hi.timerIdle hs)) (by rw [hboot]; exact hi.bootCode)

theorem Bound.inv {p : PinId} {s t : State} (h : Bound p (auxOperand s s.cfgAuxPin) s.cfgMode s t) (hi : s.Inv) :
    t.Inv := by
  obtain ⟨hpend, hseq, helapsed⟩ := h.hold
  obtain ⟨hboot, _, hcfgAux, hcfgMode, hcfgCap, hboard⟩ := h.straps
  obtain ⟨_, _, hs⟩ := hi.unbound h.wasUnbound
  have hp : p ≠ noPin := pinValid_ne_noPin h.valid
  have hrow := h.mainPin
  constructor
  case table => exact h.table hi.table
  all_goals simp only [h.main, h.aux, h.mode, h.pwr, hpend, hseq, helapsed, hboot, hcfgAux, hcfgMode, hcfgCap,
    pinValid_congr hboard, auxOperand_congr hboard]
  case unbound => exact fun hm => absurd hm hp
  case powerOff => exact fun hm => absurd hm hp
  case noCap =>
    intro hc
    rw [if_neg (by simp [hc])]
    exact hi.noCap hc
  case drvUnarmed => exact hi.drvUnarmed
  case live => exact fun _ => h.handle
  case mainHeld => exact fun _ => ⟨h.valid, by rw [hrow]⟩
  case auxHeld =>
    intro hx
    obtain ⟨hax, hv⟩ := auxOperand_of_ne hx
    exact ⟨hp, (h.auxFree hx).1, by rw [hax]; exact hv, by rw [h.auxPin hx], by rw [h.auxPin hx]⟩
  case auxStrap => exact fun _ => trivial
  case drvOutput =>
    intro _ hdrv
    rw [hrow, hdrv]
    rfl
  case odNeverHigh =>
    intro _ hod _
    rw [hrow, hod]
    exact .inl rfl
  case hold => exact fun h => absurd (hs.symm.trans h) nofun
  case timerIdle => exact hi.timerIdle
  case bootCode => exact hi.bootCode

theorem hwInit_inv {s : State} (hi : s.Inv) (p : PinId) : (hwInit p s.cfgAuxPin s.cfgMode s).2.Inv := by
  by_cases hm : s.main = noPin
  · rcases hwInit_cases p s.cfgAuxPin s.cfgMode s with ⟨_, hb⟩ | ⟨_, hr⟩
    · exact hb.inv hi
    · exact hr.inv hi hm
  · rw [hwInit_alreadyBound hm]
    exact hi

/-! RESET and STARTUP. -/

theorem powerOn_inv (b : Board) (d : Descriptor) {pins : Memory} (answers : List EngAnswer)
    (h : Memory.wf pins = true) : (State.powerOn b d pins answers).Inv :=
  .of_unbound rfl h rfl rfl rfl rfl rfl (fun _ => rfl) rfl (.inl rfl)

theorem resetRegisters_inv {s : State} (d : Descriptor) (h : Memory.wf s.pins = true) : (resetRegisters d s).Inv :=
  (Undisturbed.inputs (.powerOn s.board d s.pins s.answers) s.agenda s.draws).inv (powerOn_inv _ d _ h) fun _ => rfl

/-- The status of a HW_INIT of an unbound block is one BOOT may hold (R28, R233). -/
theorem hwInit_bootCode {p a : PinId} {m : Mode} {s : State} (hm : s.main = noPin) :
    (hwInit p a m s).1.code = 0 ∨ (hwInit p a m s).1.code = 1 ∨ (hwInit p a m s).1.code = 4 ∨
      (hwInit p a m s).1.code = 5 := by
  rcases hwInit_cases p a m s with ⟨h, _⟩ | ⟨⟨_, h⟩ | h | h | h, _⟩
  · simp [h, Status.code]
  · exact absurd hm h
  all_goals simp [h, Status.code]

theorem startup_inv {s : State} (hi : s.Inv) (hm : s.main = noPin) : (startup s).Inv := by
  unfold startup
  split
  · exact { hi with bootCode := .inl rfl }
  · exact { hwInit_inv hi s.cfgMainPin with bootCode := hwInit_bootCode hm }

theorem performReset_inv {s : State} (d : Descriptor) (h : Memory.wf s.pins = true) : (performReset d s).Inv :=
  startup_inv (resetRegisters_inv d h) rfl

/-! The step. -/

theorem MoveEffect.inv {m : Move} {s u : State} (h : MoveEffect m s u) (hi : s.Inv) : u.Inv := by
  cases h with
  | nothing => exact hi
  | readMain =>
    exact (Undisturbed.pinGet s.main s).inv hi fun _ => by obtain ⟨v, n, h⟩ := pinGet_cases s.main s; rw [h]; rfl
  | writeMain v hm hs => exact writeMain_inv hi v hm hs
  | arm d _ hod hs => exact armed_inv hi hod hs d
  | fire hm hod _ hp hreq => exact startHold_inv hi hm hod hp hreq
  | expire hs => exact holdEnded_inv hi hs
  | tick hs => exact ticked_inv hi hs
  | hook v hc hm => exact capSet_inv hi v hc hm
  | bind p => exact hwInit_inv hi p
  | exit _ hs => exact (hwExitSteps_exited s).inv hi hs
  | env p r _ _ hr => exact (Undisturbed.writePin hr).inv hi fun _ => rfl
  | reset d => exact performReset_inv d hi.table

theorem perform_inv {m : Move} {s t : State} (hi : s.Inv) (h : perform m s = .next t) : t.Inv := by
  obtain ⟨u, heff, hend⟩ := perform_effect h
  exact hend.inv (heff.inv hi)

/-- Settles O45: a move's effect keeps the invariants, and so does its ending. -/
theorem stepKeepsTheInvariants : Obligations.StepKeepsTheInvariants := by
  intro s t hi h
  rcases step_move h with rfl | ⟨m, l, n, hm, _⟩
  · exact hi
  · exact perform_inv ((Undisturbed.inputs s l n).inv hi fun _ => rfl) hm

end Sys2Proof.Machine
end

section
/-! SUPPORT. Exclusive ownership (R31, R35 (4), R62), the trace (R40), requests (R37) and RESET (R41, R230, R231). -/

namespace Sys2Proof.Machine

/-! The block holds no pin but MAIN and AUX. -/

theorem State.ownsOnlyBound.of_kept {s t : State} (h : s.ownsOnlyBound) (hmain : t.main = s.main)
    (haux : t.aux = s.aux) (howner : ∀ q, (t.pin q).owner = .self → (s.pin q).owner = .self) : t.ownsOnlyBound := by
  intro q hq
  rw [hmain, haux]
  exact h q (howner q hq)

theorem Undisturbed.owns {s t : State} (h : Undisturbed s t) (ho : s.ownsOnlyBound) : t.ownsOnlyBound := by
  obtain ⟨hmain, haux, _⟩ := h.binding
  exact ho.of_kept hmain haux h.noneTaken

theorem writeMain_aux (v : Bit) (s : State) : (writeMain v s).aux = s.aux := by
  rcases writeMain_cases v s with ⟨_, h⟩ | ⟨_, _, h⟩ | ⟨_, _, h⟩ <;> rw [h] <;> rfl

theorem writeMain_owner (v : Bit) (s : State) (q : PinId) : ((writeMain v s).pin q).owner = (s.pin q).owner := by
  rcases writeMain_cases v s with ⟨_, h⟩ | ⟨_, _, h⟩ | ⟨_, _, h⟩ <;> rw [h]
  · rw [pinSet_pin]; split <;> simp [*]
  · rw [pinDirIn_pin]; split <;> simp [*]
  · rw [pinDirOut_pin]; split <;> simp [*]

theorem startHold_owner (s : State) (q : PinId) : ((startHold s).pin q).owner = (s.pin q).owner := by
  rw [startHold_pin]
  split <;> simp [*]

theorem holdEnded_pin (s : State) (q : PinId) : (holdEnded s).pin q =
    if q = s.main then { s.pin s.main with dir := .input } else s.pin q := pinDirIn_pin s.main s q

theorem holdEnded_owner (s : State) (q : PinId) : ((holdEnded s).pin q).owner = (s.pin q).owner := by
  rw [holdEnded_pin]
  split <;> simp [*]

/-- An unbound block that holds no pin but MAIN and AUX holds none. -/
theorem not_self_of_unbound {s : State} (hi : s.Inv) (ho : s.ownsOnlyBound) (hm : s.main = noPin) (q : PinId) :
    (s.pin q).owner ≠ .self := by
  intro hq
  obtain ⟨hne, h | h⟩ := ho q hq
  · exact hne (h.trans hm)
  · exact hne (h.trans (hi.unbound hm).1)

/-- A new binding holds its main pin and its aux pin, and no other unless one was held before. -/
theorem Bound.owns {p x : PinId} {m : Mode} {s t : State} (h : Bound p x m s t)
    (hnone : ∀ q, (s.pin q).owner ≠ .self) : t.ownsOnlyBound := by
  intro q hq
  rw [h.main, h.aux]
  by_cases hp : q = p
  · exact ⟨hp ▸ pinValid_ne_noPin h.valid, .inl hp⟩
  · by_cases hx : x ≠ noPin ∧ q = x
    · exact ⟨hx.2 ▸ hx.1, .inr hx.2⟩
    · rw [h.others q hp (by tauto)] at hq
      exact absurd hq (hnone q)

theorem RolledBack.owns {p x : PinId} {s t : State} (h : RolledBack p x s t) (ho : s.ownsOnlyBound) :
    t.ownsOnlyBound := by
  obtain ⟨hmain, haux, _⟩ := h.binding
  exact ho.of_kept hmain haux fun q hq => (h.owner q).symm.trans hq

/-- HW_EXIT gives back both pins, so the unbound block holds none. -/
theorem Exited.owns {s t : State} (h : Exited s t) (ho : s.ownsOnlyBound) : t.ownsOnlyBound := by
  intro q hq
  rw [h.pins] at hq
  split at hq
  · cases hq
  · next hrel =>
    obtain ⟨hne, hmain | haux⟩ := ho q hq
    · exact absurd (.inl hmain) hrel
    · exact absurd (.inr ⟨haux ▸ hne, haux⟩) hrel

theorem hwInit_owns {s : State} (hi : s.Inv) (ho : s.ownsOnlyBound) (p a : PinId) (m : Mode) :
    (hwInit p a m s).2.ownsOnlyBound := by
  rcases hwInit_cases p a m s with ⟨_, hb⟩ | ⟨_, hr⟩
  · exact hb.owns (not_self_of_unbound hi ho hb.wasUnbound)
  · exact hr.owns ho

theorem startup_owns {s : State} (hi : s.Inv) (ho : s.ownsOnlyBound) : (startup s).ownsOnlyBound := by
  unfold startup
  split
  · exact ho
  · exact hwInit_owns hi ho s.cfgMainPin s.cfgAuxPin s.cfgMode

/-- A RESET of an unbound block leaks no pin. -/
theorem performReset_owns {s : State} (hi : s.Inv) (ho : s.ownsOnlyBound) (hm : s.main = noPin) (d : Descriptor) :
    (performReset d s).ownsOnlyBound := by
  have hreset : (resetRegisters d s).ownsOnlyBound :=
    fun q hq => absurd hq (not_self_of_unbound hi ho hm q)
  exact startup_owns (resetRegisters_inv d hi.table) hreset

theorem MoveEffect.owns {m : Move} {s u : State} (h : MoveEffect m s u) (hi : s.Inv) (ho : s.ownsOnlyBound)
    (hreset : (∃ d, m = .reset d) → s.main = noPin) : u.ownsOnlyBound := by
  cases h with
  | nothing => exact ho
  | readMain => exact (Undisturbed.pinGet s.main s).owns ho
  | writeMain v =>
    exact ho.of_kept (writeMain_main v s) (writeMain_aux v s) fun q hq => (writeMain_owner v s q).symm.trans hq
  | arm => exact ho
  | fire => exact ho.of_kept rfl rfl fun q hq => (startHold_owner s q).symm.trans hq
  | expire => exact ho.of_kept rfl rfl fun q hq => (holdEnded_owner s q).symm.trans hq
  | tick => exact ho
  | hook => exact ho
  | bind p => exact hwInit_owns hi ho p s.cfgAuxPin s.cfgMode
  | exit => exact (hwExitSteps_exited s).owns ho
  | env p r _ _ hr => exact (Undisturbed.writePin hr).owns ho
  | reset d => exact performReset_owns hi ho (hreset ⟨d, rfl⟩) d

/-- Settles O46: a move's effect takes no pin but those it binds, and its ending takes none. -/
theorem stepKeepsExclusiveOwnership : Obligations.StepKeepsExclusiveOwnership := by
  intro s t hi ho hreset h
  rcases step_move h with rfl | ⟨m, l, n, hm, hnext⟩
  · exact ho
  · have hin := Undisturbed.inputs s l n
    obtain ⟨u, heff, hend⟩ := perform_effect hm
    exact hend.undisturbed.owns (heff.owns (hin.inv hi fun _ => rfl) (hin.owns ho) fun hd => hreset (hnext hd))

/-! The trace. -/

theorem pinGet_grown (p : PinId) (s : State) : s.trace <+: (pinGet p s).2.trace := by
  obtain ⟨v, n, h⟩ := pinGet_cases p s
  rw [h]
  exact List.prefix_append _ _

theorem writeMain_grown (v : Bit) (s : State) : s.trace <+: (writeMain v s).trace := by
  rcases writeMain_cases v s with ⟨_, h⟩ | ⟨_, _, h⟩ | ⟨_, _, h⟩ <;> rw [h] <;> exact List.prefix_append _ _

theorem hwInit_grown (p a : PinId) (m : Mode) (s : State) : s.trace <+: (hwInit p a m s).2.trace := by
  rcases hwInit_cases p a m s with ⟨_, hb⟩ | ⟨_, hr⟩
  · exact hb.grown
  · exact hr.grown

theorem MoveEffect.grown {m : Move} {s u : State} (h : MoveEffect m s u) (hm : ¬∃ d, m = .reset d) :
    s.trace <+: u.trace := by
  cases h with
  | nothing => exact List.prefix_rfl
  | readMain => exact pinGet_grown s.main s
  | writeMain v => exact writeMain_grown v s
  | arm => exact List.prefix_rfl
  | fire => rw [startHold_trace]; exact List.prefix_append _ _
  | expire => exact List.prefix_append _ _
  | tick => exact List.prefix_rfl
  | hook => exact List.prefix_append _ _
  | bind p => exact hwInit_grown p s.cfgAuxPin s.cfgMode s
  | exit => rw [(hwExitSteps_exited s).trace]; exact List.prefix_append _ _
  | env => exact List.prefix_rfl
  | reset d => exact absurd ⟨d, rfl⟩ hm

theorem MoveEnding.grown {u t : State} (h : MoveEnding u t) : u.trace <+: t.trace := by
  cases h with
  | silent => exact List.prefix_rfl
  | answer p st v => rw [respond_trace]; exact List.prefix_append _ _
  | issue p w => rw [setPort_trace]
  | signal => exact List.prefix_rfl

/-- Settles O47: a move's effect, unless it is a RESET, and its ending only append events. -/
theorem traceIsOnlyAppendedTo : Obligations.TraceIsOnlyAppendedTo := by
  intro s t hnext h
  rcases step_move h with rfl | ⟨m, l, n, hm, hreset⟩
  · exact List.prefix_rfl
  · obtain ⟨u, heff, hend⟩ := perform_effect hm
    have hnoreset : ¬∃ d, m = .reset d := fun hd => absurd (hnext.symm.trans (hreset hd)) nofun
    exact (heff.grown hnoreset).trans hend.grown

/-! Requests. -/

theorem issue_idle {p : PortId} {s : State} (w : Word) (h : (s.port p).req = none) :
    issue p w s = .next (s.setPort p ⟨some w, none⟩) := by
  simp only [issue, h]

theorem issue_busy {p : PortId} {s : State} (w : Word) (h : (s.port p).req ≠ none) :
    issue p w s = .refused .portBusy := by
  obtain ⟨v, hv⟩ := Option.ne_none_iff_exists'.1 h
  simp only [issue, hv]

/-- Settles O8: an issue replaces one port, or is refused. -/
theorem oneRequestPerPort : Obligations.OneRequestPerPort := by
  intro s p w
  refine ⟨fun h => ⟨_, issue_idle w h, setPort_port_same s p _, setPort_trace s p _, ?_⟩, issue_busy w⟩
  have hquiet := (MoveEnding.issue p w h).undisturbed
  refine ⟨?_, hquiet.binding, hquiet.hold, hquiet.pwr, hquiet.straps, ?_, ?_, ?_⟩
  · simp [keepsInputs]
  · exact fun q _ => setPort_pin s p _ q
  · exact fun q hq => setPort_port_ne s _ hq
  · exact setPort_teardown s p _

/-! RESET. -/

theorem performReset_unbound {d : Descriptor} (h : d.mainPin = noPin) (s : State) :
    performReset d s = { resetRegisters d s with boot := Status.ok.code } := if_pos h

/-- Settles O42: with no static pin STARTUP only writes BOOT, so the registers are those of RESET. -/
theorem resetWithoutStaticPin : Obligations.ResetWithoutStaticPin := by
  intro s d h
  refine ⟨_, congrArg Host.Outcome.next (performReset_unbound h s), ?_⟩
  refine ⟨rfl, rfl, rfl, rfl, rfl, rfl, rfl, rfl, rfl, rfl, rfl, rfl, ?_, rfl, rfl, rfl, rfl, rfl, rfl, rfl, rfl⟩
  intro p
  cases p <;> rfl

theorem reset_owns : State.reset.ownsOnlyBound := fun _ hq => absurd hq nofun

/-- Settles O44: State.reset is the unbound state that power-on leaves, with an empty pin table. -/
theorem resetHasTheInvariants : Obligations.ResetHasTheInvariants :=
  ⟨powerOn_inv Board.confA Descriptor.confA [] rfl, reset_owns⟩

end Sys2Proof.Machine
end

section
/-! SUPPORT. The pin table seen from outside (spec/20_memory.md R54 to R65, R73): the primitives, the level of a line,
the moves of ENV. -/

namespace Sys2Proof.Machine

/-! One row and one event (R54 to R58). -/

theorem writePin_keepsPinsBut (s : State) (p : PinId) (r : Pin) : keepsPinsBut [p] s (s.writePin p r) :=
  fun _ hq => writePin_pin_ne s r fun h => hq (List.mem_singleton.2 h)

/-- A primitive that writes one row and emits one event does nothing else to the pins and the trace. -/
theorem writePin_emit_spec (s : State) (p : PinId) (r : Pin) (e : Event) :
    ((s.writePin p r).emit e).pin p = r ∧ keepsPinsBut [p] s ((s.writePin p r).emit e) ∧
      emits s ((s.writePin p r).emit e) [e] :=
  ⟨writePin_pin_same s p r, writePin_keepsPinsBut s p r, rfl⟩

/-- Settles O9: PinAcquire writes the row of a free pin, and only emits its event for any other. -/
theorem acquireTakesOnlyAFreePin : Obligations.AcquireTakesOnlyAFreePin := by
  intro s p
  constructor
  · intro hfree
    rw [pinAcquire_free hfree]
    exact ⟨rfl, writePin_emit_spec s p _ _⟩
  · intro htaken
    rw [pinAcquire_taken htaken]
    exact ⟨rfl, fun _ _ => rfl, rfl⟩

/-- Settles O10: each of the four is one row written and one event emitted. -/
theorem pinPrimitivesWriteOneRow : Obligations.PinPrimitivesWriteOneRow := fun s p _ =>
  ⟨writePin_emit_spec s p _ _, writePin_emit_spec s p _ _, writePin_emit_spec s p _ _, writePin_emit_spec s p _ _⟩

/-! The level of a line (R64, R65). -/

theorem lineLevel_outputLow {s : State} {p : PinId} (hdir : (s.pin p).dir = .output) (hout : (s.pin p).out = 0) :
    lineLevel s p = some 0 := by
  simp only [lineLevel, hdir, hout, if_true]

theorem lineLevel_outputHigh {s : State} {p : PinId} (hdir : (s.pin p).dir = .output) (hout : (s.pin p).out = 1) :
    lineLevel s p =
      if (s.pin p).extLow = false then some 1 else if s.board.padOd = true then some 0 else none := by
  simp only [lineLevel, hdir, hout, show ¬((1 : Bit) = 0) by decide, if_false]

theorem lineLevel_input {s : State} {p : PinId} (hdir : (s.pin p).dir = .input) :
    lineLevel s p =
      if (s.pin p).extLow = true then some 0 else if pullupEff s p = true then some 1 else none := by
  simp only [lineLevel, hdir]

/-- A level the line model determines is what `PinGet` returns (R59). -/
theorem pinGet_level {s : State} {p : PinId} {v : Bit} (h : lineLevel s p = some v) : (pinGet p s).1 = v := by
  rw [pinGet_known h]

/-- Where it determines none, `PinGet` takes the next free value, once (R64; notes/assumptions/4). -/
theorem pinGet_freeValue {s : State} {p : PinId} (h : lineLevel s p = none) :
    (pinGet p s).1 = Config.lineDraw s.draws ∧ (pinGet p s).2.draws = s.draws + 1 := by
  rw [pinGet_draw h]
  exact ⟨rfl, rfl⟩

/-- Settles O11: `PinGet` returns the level of the line, which the direction and what else acts on the line decide. -/
theorem lineLevelIsTheSpecs : Obligations.LineLevelIsTheSpecs := by
  intro s p
  refine ⟨?_, ?_, ?_, ?_, ?_, ?_, ?_⟩
  · intro hdir hout
    exact pinGet_level (lineLevel_outputLow hdir hout)
  · intro hdir hout hext
    exact pinGet_level (by simp [lineLevel_outputHigh hdir hout, hext])
  · intro hdir hout hext hpad
    exact pinGet_level (by simp [lineLevel_outputHigh hdir hout, hext, hpad])
  · intro hdir hout hext hpad
    exact pinGet_freeValue (by simp [lineLevel_outputHigh hdir hout, hext, hpad])
  · intro hdir hext
    exact pinGet_level (by simp [lineLevel_input hdir, hext])
  · intro hdir hext hpull
    exact pinGet_level (by simp [lineLevel_input hdir, hext, hpull])
  · intro hdir hext hpull
    exact pinGet_freeValue (by simp [lineLevel_input hdir, hext, hpull])

theorem pullupEff_iff {s : State} {p : PinId} : pullupEff s p = true ↔
    p = s.main ∧ s.board.pullupPresent = true ∧ (s.cfgCap = false ∨ s.pwr = 1) ∧
      (s.aux = noPin ∨ ((s.pin s.aux).dir = .output ∧ (s.pin s.aux).out = 1)) := by
  simp [pullupEff, and_assoc]

/-- Settles O12: the four tests of `pullupEff`, read as propositions. -/
theorem pullupNeedsEverySwitch : Obligations.PullupNeedsEverySwitch := fun _ _ => pullupEff_iff

/-! The moves of ENV (R60, R61, R73). -/

theorem envAcquire_taken {s : State} {p : PinId} (hv : pinValid s p = true) (ho : (s.pin p).owner = .free) :
    envAcquire p s = s.writePin p { s.pin p with owner := .other } :=
  envWrite_taken (freeForEnv_iff.2 ⟨hv, ho⟩) _ _ _

theorem envRelease_taken {s : State} {p : PinId} (hv : pinValid s p = true) (ho : (s.pin p).owner = .other) :
    envRelease p s = s.writePin p { s.pin p with owner := .free } :=
  envWrite_taken (heldByEnv_iff.2 ⟨hv, ho⟩) _ _ _

theorem envDrive_taken {s : State} {p : PinId} (d : Dir) (v : Bit) (hv : pinValid s p = true)
    (ho : (s.pin p).owner = .other) : envDrive p d v s = s.writePin p { s.pin p with dir := d, out := v } :=
  envWrite_taken (heldByEnv_iff.2 ⟨hv, ho⟩) _ _ _

theorem envLine_taken {s : State} {p : PinId} (low : Bool) (hv : pinValid s p = true) :
    envLine p low s = s.writePin p { s.pin p with extLow := low } := envWrite_taken hv _ _ _

/-- Settles O53: a move that may be made writes its one row. -/
theorem environmentMovesTakeEffect : Obligations.EnvironmentMovesTakeEffect := by
  intro s p hv
  have wrote : ∀ r, (s.writePin p r).pin p = r ∧ keepsPinsBut [p] s (s.writePin p r) :=
    fun r => ⟨writePin_pin_same s p r, writePin_keepsPinsBut s p r⟩
  refine ⟨?_, ?_, ?_, ?_⟩
  · exact fun hfree => ⟨_, congrArg Host.Outcome.next (envAcquire_taken hv hfree), wrote _⟩
  · exact fun hother => ⟨_, congrArg Host.Outcome.next (envRelease_taken hv hother), wrote _⟩
  · exact fun d v hother => ⟨_, congrArg Host.Outcome.next (envDrive_taken d v hv hother), wrote _⟩
  · exact fun low => ⟨_, congrArg Host.Outcome.next (envLine_taken low hv), wrote _⟩

theorem envAcquire_failed {s : State} {p : PinId} (h : (s.pin p).owner ≠ .free ∨ pinValid s p = false) :
    envAcquire p s = s := by
  refine envWrite_failed (fun hmay => ?_) _ _ _
  obtain ⟨hv, ho⟩ := freeForEnv_iff.1 hmay
  simp [hv, ho] at h

theorem not_heldByEnv {s : State} {p : PinId} (h : (s.pin p).owner ≠ .other ∨ pinValid s p = false) :
    heldByEnv s p ≠ true := by
  intro hheld
  obtain ⟨hv, ho⟩ := heldByEnv_iff.1 hheld
  simp [hv, ho] at h

theorem envLine_failed {s : State} {p : PinId} (low : Bool) (h : pinValid s p = false) : envLine p low s = s :=
  envWrite_failed (by simp [h]) _ _ _

/-- A move of ENV goes on, disturbs nothing of the block, and touches neither ports nor trace nor what the surroundings
will do. -/
theorem env_undisturbed {m : Move} (hm : m.isEnv) (s : State) :
    ∃ t, perform m s = .next t ∧ Undisturbed s t ∧ t.trace = s.trace ∧ (∀ p, t.port p = s.port p) ∧
      t.teardown = s.teardown ∧ keepsInputs s t := by
  rcases env_cases hm s with he | ⟨p, r, he, _, hr⟩
  · exact ⟨s, he, .refl s, rfl, fun _ => rfl, rfl, rfl, rfl, rfl⟩
  · exact ⟨_, he, .writePin hr, rfl, writePin_port s p r, rfl, rfl, rfl, rfl⟩

/-- Settles O52: what ENV may do disturbs no held pin, and what it may not do fails. -/
theorem environmentLeavesHeldPinsAlone : Obligations.EnvironmentLeavesHeldPinsAlone := by
  intro s m hm
  refine ⟨?_, ?_, ?_, ?_⟩
  · obtain ⟨t, ht, hquiet, htrace, hports, hteardown, hinputs⟩ := env_undisturbed hm s
    exact ⟨t, ht, hquiet.binding, hquiet.hold, hquiet.pwr, hquiet.straps, htrace, hports, hteardown, hinputs,
      hquiet.held⟩
  · rintro p hp rfl
    exact congrArg _ (envAcquire_failed hp)
  · rintro p d v hp (rfl | rfl)
    · exact congrArg _ (envWrite_failed (not_heldByEnv hp) _ _ _)
    · exact congrArg _ (envWrite_failed (not_heldByEnv hp) _ _ _)
  · rintro p low hp rfl
    exact congrArg _ (envLine_failed low hp)

end Sys2Proof.Machine
end

section
/-! SUPPORT. Service of a port (spec/20_memory.md R74, R75), the hold (R82) and open-drain read-back
(spec/95_test_vectors.md S6). -/

namespace Sys2Proof.Machine

/-! The step that serves a port. -/

@[simp] theorem withAgenda_port (s : State) (l : List Move) (p : PortId) :
    State.port { s with agenda := l } p = s.port p := by
  cases p <;> rfl

/-- The step that serves a command (R74, R82). -/
theorem step_serve {s : State} {p : PortId} {w : Word} {i : Instr} {rest : List Move}
    (hagenda : s.agenda = .serve p :: rest) (hreq : (s.port p).req = some w) (hd : decode p w = .ok i) :
    step s =
      if p = .bt ∧ s.seq = .puHold then .next { s with agenda := rest } else exec i { s with agenda := rest } := by
  have hserve := serve_command (s := { s with agenda := rest }) (by rwa [withAgenda_port]) hd
  simp only [portInHold_iff] at hserve
  exact (step_agenda hagenda).trans hserve

/-- A word that decodes names its port by its class (R92). -/
theorem portOfWord_of_decode {p : PortId} {w : Word} {i : Instr} (h : decode p w = .ok i) : portOfWord w = p := by
  unfold decode at h
  split at h
  · cases h
  · next q hq =>
    split at h
    · next hqp => rw [portOfWord, hq, Option.getD_some, hqp]
    · cases h

theorem tableWord_toNat (w : Word) : tableWord 32 w.toNat = w := by
  rw [tableWord, Nat.mod_eq_of_lt w.isLt, BitVec.ofNat_toNat, BitVec.setWidth_eq]

/-- With the service of the placed word taken off the agenda, what is left of its placing is the request. -/
theorem withRequest_served (s : State) (w : Word) :
    { s.withRequest w with agenda := s.agenda } = s.setPort (portOfWord w) ⟨some w, none⟩ := by
  unfold State.withRequest
  cases portOfWord w <;> rfl

/-- Settles O6: the step serves the port, and a placed word is a request with its service next. -/
theorem stepRunsTheDecodedCommand : Obligations.StepRunsTheDecodedCommand := by
  refine ⟨fun s p w i rest => step_serve, fun s w i hidle hd => ?_⟩
  have hport := portOfWord_of_decode hd
  rw [State.withFetchWord, tableWord_toNat, ← hport, ← withRequest_served]
  have hreq : (s.withRequest w).port (portOfWord w) = ⟨some w, none⟩ :=
    (withAgenda_port _ _ _).trans (setPort_port_same s _ _)
  have hseq : (s.withRequest w).seq = .idle := (setPort_seq s _ _).trans hidle
  rw [step_serve (rest := s.agenda) rfl (congrArg PortState.req hreq) (hport.symm ▸ hd), if_neg]
  simp [hseq]

/-! What a hold lets happen. -/

/-- Settles O35: UNBIND and the TEARDOWN signal are held, and each other command off BT ends in its response. -/
theorem holdHoldsUnbindAndTeardown : Obligations.HoldHoldsUnbindAndTeardown := by
  intro s hm hs
  refine ⟨exec_unbind_held hm hs, serveTeardown_held hm hs, fun i hport hunbind => ?_⟩
  cases i with
  | bind p => exact ⟨_, _, _, exec_bind p s, respond_port_same _ _ _ _⟩
  | unbind => exact absurd rfl hunbind
  | querypin => exact ⟨_, _, _, exec_querypin s, respond_port_same _ _ _ _⟩
  | readBit => exact absurd rfl hport
  | writeBit v => exact absurd rfl hport
  | setPullup d => exact absurd rfl hport
  | suspend => exact ⟨_, _, _, exec_suspend s, respond_port_same _ _ _ _⟩
  | resume => exact ⟨_, _, _, exec_resume s, respond_port_same _ _ _ _⟩

/-- The hold goes on: binding, PEND and timer as they were, and the main pin with its owner, direction and level. -/
structure HoldGoesOn (s t : State) : Prop where
  binding : keepsBinding s t
  hold : keepsHold s t
  owner : (t.pin s.main).owner = (s.pin s.main).owner
  dir : (t.pin s.main).dir = (s.pin s.main).dir
  out : (t.pin s.main).out = (s.pin s.main).out

theorem Undisturbed.holdGoesOn {s t : State} (h : Undisturbed s t) (hown : (s.pin s.main).owner = .self) :
    HoldGoesOn s t := by
  obtain ⟨ho, hd, hout⟩ := h.held s.main hown
  exact ⟨h.binding, h.hold, ho.trans hown.symm, hd, hout⟩

theorem HoldGoesOn.trans {s u t : State} (h : HoldGoesOn s u) (h' : HoldGoesOn u t) : HoldGoesOn s t := by
  obtain ⟨hmain, haux, hmode, hhandle⟩ := h.binding
  obtain ⟨hmain', haux', hmode', hhandle'⟩ := h'.binding
  obtain ⟨hpend, hseq, helapsed⟩ := h.hold
  obtain ⟨hpend', hseq', helapsed'⟩ := h'.hold
  obtain ⟨_, _, ho', hd', hout'⟩ := h'
  rw [hmain] at ho' hd' hout'
  exact ⟨⟨hmain'.trans hmain, haux'.trans haux, hmode'.trans hmode, hhandle'.trans hhandle⟩,
    ⟨hpend'.trans hpend, hseq'.trans hseq, helapsed'.trans helapsed⟩,
    ho'.trans h.owner, hd'.trans h.dir, hout'.trans h.out⟩

/-- In a hold the effect of a move, a TICK and a RESET aside, leaves the hold alone or is its expiry in time. -/
theorem MoveEffect.inHold {m : Move} {s u : State} (h : MoveEffect m s u) (hi : s.Inv) (hs : s.seq = .puHold)
    (hreset : ∀ d, m ≠ .reset d) (htick : m ≠ .tick) :
    HoldGoesOn s u ∨ (m = .puExpire ∧ s.pend.toNat ≤ s.elapsed ∧ u = holdEnded s) := by
  have hm := (hi.hold hs).1
  have hown := (hi.mainHeld hm).2
  have notIdle : s.seq ≠ .idle := by rw [hs]; exact nofun
  have same := (Undisturbed.refl s).holdGoesOn hown
  cases h with
  | nothing => exact .inl same
  | readMain => exact .inl ((Undisturbed.pinGet s.main s).holdGoesOn hown)
  | writeMain _ _ hidle => exact absurd hidle notIdle
  | arm _ _ _ hidle => exact absurd hidle notIdle
  | fire _ _ hidle => exact absurd hidle notIdle
  | expire _ he => exact .inr ⟨rfl, he, rfl⟩
  | tick => exact absurd rfl htick
  | hook => exact .inl { same with }
  | bind p => rw [hwInit_alreadyBound hm]; exact .inl same
  | exit _ hidle => exact absurd hidle notIdle
  | env p r _ _ hr => exact .inl ((Undisturbed.writePin hr).holdGoesOn hown)
  | reset d => exact absurd rfl (hreset d)

theorem tick_inHold {s : State} (hs : s.seq = .puHold) : tick s = { s with elapsed := s.elapsed + 1 } :=
  if_pos (by simp [State.holding, hs])

/-- Settles O51: a TICK only counts; any other move's effect leaves the hold alone or ends it in time, and its ending
disturbs nothing. -/
theorem holdIsTimedAndUndisturbed : Obligations.HoldIsTimedAndUndisturbed := by
  intro s t m hi hs hreset h
  obtain ⟨hm, _, _, hdir, hout, _⟩ := hi.hold hs
  have hown := (hi.mainHeld hm).2
  by_cases htick : m = .tick
  · subst htick
    cases (congrArg Host.Outcome.next (tick_inHold hs)).symm.trans h
    exact ⟨⟨rfl, rfl, rfl, rfl⟩, rfl, .inl ⟨hs, rfl, rfl, hdir, hout⟩⟩
  obtain ⟨u, heff, hend⟩ := perform_effect h
  rcases heff.inHold hi hs hreset htick with hgoes | ⟨rfl, he, rfl⟩
  · have howned : (u.pin u.main).owner = .self := by
      rw [hgoes.binding.1, hgoes.owner, hown]
    obtain ⟨hbinding, ⟨hpend, hseq, helapsed⟩, howner, hdir', hout'⟩ :=
      hgoes.trans (hend.undisturbed.holdGoesOn howned)
    exact ⟨hbinding, howner.symm, .inl ⟨hseq.trans hs, hpend, by simp [helapsed, htick], hdir'.trans hdir,
      hout'.trans hout⟩⟩
  · have hquiet := hend.undisturbed
    have hheld := hquiet.held s.main ((holdEnded_owner s s.main).trans hown)
    obtain ⟨_, hseq, _⟩ := hquiet.hold
    exact ⟨hquiet.binding, hown.trans hheld.1.symm, .inr ⟨rfl, he, hseq⟩⟩

/-! Open-drain read-back. -/

/-- READ_BIT of a bound block answers the level of the main line, where the line model determines it (R120). -/
theorem exec_readBit_level {s : State} {v : Bit} (hm : s.main ≠ noPin) (hl : lineLevel s s.main = some v) :
    ∃ t, exec .readBit s = .next t ∧ answered .bt .ok (levelValue v) t := by
  refine ⟨_, exec_readBit_bound hm, ?_⟩
  rw [pinGet_level hl]
  exact respond_port_same _ _ _ _

/-- The pull-up depends on the switches of R65 only: the board, the capability and the aux pin's row. -/
theorem pullupEff_congr {s t : State} (hmain : t.main = s.main) (haux : t.aux = s.aux) (hboard : t.board = s.board)
    (hcap : t.cfgCap = s.cfgCap) (hpwr : t.pwr = s.pwr) (hrow : t.pin s.aux = s.pin s.aux) (p : PinId) :
    pullupEff t p = pullupEff s p := by
  simp only [pullupEff, hmain, haux, hboard, hcap, hpwr, hrow]

/-- The main pin's release leaves its line high where a pull-up is effective and no device pulls low (R64, R65). -/
theorem lineLevel_released {s : State} (hpull : pullupEff s s.main = true) (hext : (s.pin s.main).extLow = false)
    (haux : s.aux ≠ s.main) : lineLevel (pinDirIn s.main s) s.main = some 1 := by
  have hrow : (pinDirIn s.main s).pin s.main = { s.pin s.main with dir := .input } := writePin_pin_same s _ _
  have hauxRow : (pinDirIn s.main s).pin s.aux = s.pin s.aux := writePin_pin_ne s _ haux
  have hpull' : pullupEff (pinDirIn s.main s) s.main = true :=
    (pullupEff_congr (s := s) (t := pinDirIn s.main s) rfl rfl rfl rfl rfl hauxRow s.main).trans hpull
  rw [lineLevel_input (congrArg Pin.dir hrow), hpull', hrow]
  simp [hext]

theorem bit_cases (v : Bit) : v = 0 ∨ v = 1 := by
  revert v
  decide

theorem lineLevel_respond (p : PortId) (st : Status) (v : Value) (s : State) (q : PinId) :
    lineLevel (respond p st v s) q = lineLevel s q := by
  cases p <;> rfl

/-- In open-drain mode a written bit is the level of the main line, and the main pin is not output-high (R34, R64). -/
theorem writeMain_od_line {s : State} {v : Bit} (hod : s.mode = .od)
    (hone : v = 1 → pullupEff s s.main = true ∧ (s.pin s.main).extLow = false ∧ s.aux ≠ s.main) :
    lineLevel (writeMain v s) s.main = some v ∧
      ¬(((writeMain v s).pin s.main).dir = .output ∧ ((writeMain v s).pin s.main).out = 1) := by
  rcases bit_cases v with rfl | rfl
  · rw [writeMain_od_zero hod]
    have hrow : (pinDirOut s.main 0 s).pin s.main = { s.pin s.main with dir := .output, out := 0 } :=
      writePin_pin_same s _ _
    exact ⟨lineLevel_outputLow (congrArg Pin.dir hrow) (congrArg Pin.out hrow),
      by simp [pinDirOut_pin]⟩
  · rw [writeMain_od_one hod]
    obtain ⟨hpull, hext, haux⟩ := hone rfl
    exact ⟨lineLevel_released hpull hext haux, by simp [pinDirIn_pin]⟩

/-- Settles O23: READ_BIT answers the level of the main line, which WRITE_BIT made the bit written. -/
theorem openDrainReadsBackWhatWasWritten : Obligations.OpenDrainReadsBackWhatWasWritten := by
  intro s v hm hod hone
  obtain ⟨hlevel, hlow⟩ := writeMain_od_line hod hone
  have hmain : (respond .bt .ok 0 (writeMain v s)).main = s.main := writeMain_main v s
  have hline : lineLevel (respond .bt .ok 0 (writeMain v s)) (respond .bt .ok 0 (writeMain v s)).main = some v := by
    rw [hmain, lineLevel_respond, hlevel]
  obtain ⟨u, hread, hanswer⟩ := exec_readBit_level (hmain ▸ hm) hline
  exact ⟨_, u, exec_writeBit_bound hm, hread, hanswer, hlow⟩

end Sys2Proof.Machine
end

section
/-! SUPPORT. The decoder and the encoder as inverses (spec/30_encoding.md R91 to R99), the opcode map as the set of the words
that decode (R95), the answer to a word outside it (R100), and the response word (R93, R94). -/

namespace Sys2Proof

/-! Decoding an encoded command. -/

/-- Every command's word has its class, opcode and operand fields, and selects its row (R91, R92, R95). -/
theorem encodedFields (i : Instr) : Laws.EncodedFields.Statement i := by
  cases i with
  | bind pin => exact Laws.EncodedFields.bind pin
  | unbind => exact Laws.EncodedFields.unbind
  | querypin => exact Laws.EncodedFields.querypin
  | readBit => exact Laws.EncodedFields.readBit
  | writeBit v => exact Laws.EncodedFields.writeBit v
  | setPullup d => exact Laws.EncodedFields.setPullup d
  | suspend => exact Laws.EncodedFields.suspend
  | resume => exact Laws.EncodedFields.resume

/-- A word whose class is another port's is on the wrong port (R92). -/
theorem decode_wrongPort {p q : PortId} {w : Word} (hcls : clsField w = q.cls) (hne : q ≠ p) :
    decode p w = .error .wrongPort := by
  simp only [decode, portOfCls_eq_some.2 hcls, if_neg hne]

theorem decode_cc {w : Word} (hcls : clsField w = PortId.cls .cc) : decode .cc w = decodeCc (fnField w) (argField w) := by
  simp only [decode, portOfCls_eq_some.2 hcls, if_true]

theorem decode_bt {w : Word} (hcls : clsField w = PortId.cls .bt) : decode .bt w = decodeBt (fnField w) (argField w) := by
  simp only [decode, portOfCls_eq_some.2 hcls, if_true]

theorem decode_pm {w : Word} (hcls : clsField w = PortId.cls .pm) : decode .pm w = decodePm (fnField w) (argField w) := by
  simp only [decode, portOfCls_eq_some.2 hcls, if_true]

/-- On its own port a command's word decodes to the command (R95 to R99). -/
theorem decode_encode (i : Instr) : decode i.port (encode i) = .ok i := by
  obtain ⟨hcls, _, harg, _⟩ := encodedFields i
  have hfn : fnField (encode i) = i.opcode.extractLsb' 0 4 := fnField_append _ _
  cases i with
  | bind | unbind | querypin =>
    rw [Instr.port, decode_cc hcls, hfn, harg]
    simp [decodeCc, noOperand, Instr.opcode, Instr.operand]
  | readBit | writeBit | setPullup =>
    rw [Instr.port, decode_bt hcls, hfn, harg]
    simp [decodeBt, noOperand, writeBitOperand_setWidth, Instr.opcode, Instr.operand]
  | suspend | resume =>
    rw [Instr.port, decode_pm hcls, hfn, harg]
    simp [decodePm, noOperand, Instr.opcode, Instr.operand]

/-- Settles O1: the class of the word decides the port, its function and its operand the command. -/
theorem decodeEncodeRoundTrip : Obligations.DecodeEncodeRoundTrip := by
  intro i p
  split
  · next hp => rw [hp, decode_encode]
  · next hp =>
    obtain ⟨hcls, _⟩ := encodedFields i
    exact decode_wrongPort hcls (Ne.symm hp)

/-- Settles O2: the three fields of a word that decodes are the command's. -/
theorem everyLegalWordIsAnEncoding : Obligations.EveryLegalWordIsAnEncoding :=
  fun _ _ _ h => ⟨encode_of_decode h, Machine.port_of_decode h⟩

/-! The opcode map. -/

theorem selects_iff {r : OpcodeRow} {p : PortId} {w : Word} :
    r.selects p w = true ↔ r.port = p ∧ w &&& r.mask = r.pattern := by
  simp [OpcodeRow.selects]

theorem row_mem_opcodeMap (i : Instr) : i.row ∈ opcodeMap := by
  cases i <;> simp [opcodeMap, Instr.row]

/-- A word whose opcode alone is fixed is that opcode with its own operand (R96, R98). -/
theorem word_of_opcode {w : Word} {op : BitVec 8} (h : w &&& 0xFF000000#32 = op ++ 0#24) : w = op ++ argField w := by
  have hw := word_eq_fields w
  rw [hw, Laws.and_append_operand] at h
  have hop := congrArg (BitVec.extractLsb' 24 8) h
  rw [opcodeField_append, opcodeField_append] at hop
  rwa [hop] at hw

/-- A word that WRITE_BIT's row selects is the word of a WRITE_BIT, of its bit 0 (R97). -/
theorem encode_writeBit_of_mask {w : Word} (h : w &&& 0xFFFFFFFE#32 = 0x21000000#32) :
    encode (.writeBit (BitVec.ofBool (w.getLsbD 0))) = w := by
  have hsplit : w = (w &&& 0xFFFFFFFE#32) ||| (w &&& 1#32) := by
    rw [← BitVec.and_or_distrib_left]
    exact BitVec.and_allOnes.symm
  rw [h, BitVec.and_one_eq_setWidth_ofBool_getLsbD] at hsplit
  generalize w.getLsbD 0 = b at hsplit ⊢
  subst hsplit
  revert b
  decide

/-- A row with no operand is selected by its pattern only (R99). -/
theorem eq_of_and_full_mask {w pattern : Word} (h : w &&& 0xFFFFFFFF#32 = pattern) : pattern = w :=
  h.symm.trans BitVec.and_allOnes

/-- A word that a row's mask and pattern admit is the word of a command of that row (R95). -/
theorem exists_encode_of_mask {w : Word} (i : Instr) (h : w &&& i.row.mask = i.row.pattern) :
    ∃ j : Instr, j.row = i.row ∧ encode j = w := by
  cases i with
  | bind => exact ⟨.bind (argField w), rfl, (word_of_opcode (op := 0x10) h).symm⟩
  | unbind => exact ⟨.unbind, rfl, eq_of_and_full_mask h⟩
  | querypin => exact ⟨.querypin, rfl, eq_of_and_full_mask h⟩
  | readBit => exact ⟨.readBit, rfl, eq_of_and_full_mask h⟩
  | writeBit => exact ⟨.writeBit (.ofBool (w.getLsbD 0)), rfl, encode_writeBit_of_mask h⟩
  | setPullup => exact ⟨.setPullup (argField w), rfl, (word_of_opcode (op := 0x22) h).symm⟩
  | suspend => exact ⟨.suspend, rfl, eq_of_and_full_mask h⟩
  | resume => exact ⟨.resume, rfl, eq_of_and_full_mask h⟩

theorem row_port (i : Instr) : i.row.port = i.port := by
  cases i <;> rfl

theorem exists_row_of_mem {r : OpcodeRow} (h : r ∈ opcodeMap) : ∃ i : Instr, i.row = r := by
  simp only [opcodeMap, List.mem_cons, List.not_mem_nil, or_false] at h
  rcases h with rfl | rfl | rfl | rfl | rfl | rfl | rfl | rfl <;> exact ⟨_, rfl⟩

/-- A row of the opcode map is selected exactly by the words that decode to a command of that row (R95). -/
theorem selects_iff_decode {r : OpcodeRow} (hr : r ∈ opcodeMap) {p : PortId} {w : Word} :
    r.selects p w = true ↔ ∃ i, decode p w = .ok i ∧ i.row = r := by
  constructor
  · intro hsel
    obtain ⟨i, rfl⟩ := exists_row_of_mem hr
    obtain ⟨hport, hmask⟩ := selects_iff.1 hsel
    obtain ⟨j, hrow, rfl⟩ := exists_encode_of_mask i hmask
    rw [← hrow, row_port] at hport
    exact ⟨j, hport ▸ decode_encode j, hrow⟩
  · rintro ⟨i, hd, rfl⟩
    rw [← encode_of_decode hd, ← Machine.port_of_decode hd]
    obtain ⟨_, _, _, hsel⟩ := encodedFields i
    exact hsel

/-- A word that decodes selects the row of its command (R95). -/
theorem row_selects_of_decode {p : PortId} {w : Word} {i : Instr} (hd : decode p w = .ok i) :
    i.row ∈ opcodeMap ∧ i.row.selects p w = true :=
  ⟨row_mem_opcodeMap i, (selects_iff_decode (row_mem_opcodeMap i)).2 ⟨i, hd, rfl⟩⟩

/-- A word decodes exactly if it selects a row (R95). -/
theorem decodes_iff_selects (p : PortId) (w : Word) :
    (∃ i, decode p w = .ok i) ↔ ∃ r ∈ opcodeMap, r.selects p w = true := by
  constructor
  · rintro ⟨i, hd⟩
    exact ⟨i.row, row_selects_of_decode hd⟩
  · rintro ⟨r, hr, hsel⟩
    obtain ⟨i, hd, _⟩ := (selects_iff_decode hr).1 hsel
    exact ⟨i, hd⟩

/-- A word selects one row only: that of the command it decodes to. -/
theorem row_unique {a b : OpcodeRow} (ha : a ∈ opcodeMap) (hb : b ∈ opcodeMap) {p : PortId} {w : Word}
    (hsela : a.selects p w = true) (hselb : b.selects p w = true) : a = b := by
  obtain ⟨i, hi, rfl⟩ := (selects_iff_decode ha).1 hsela
  obtain ⟨j, hj, rfl⟩ := (selects_iff_decode hb).1 hselb
  cases hi.symm.trans hj
  rfl

theorem opcodeMap_nodup : opcodeMap.Nodup := by decide

/-- Settles O3: a row is selected exactly by the words that decode to its commands, and the rows are distinct. -/
theorem decodingFollowsTheOpcodeMap : Obligations.DecodingFollowsTheOpcodeMap := by
  refine ⟨decodes_iff_selects, fun _ _ _ => row_selects_of_decode, ?_⟩
  exact opcodeMap_nodup.imp_of_mem fun ha hb hne _ _ ⟨hsela, hselb⟩ => hne (row_unique ha hb hsela hselb)

/-- Settles O4: thirteen closed words, evaluated. -/
theorem specWordsDecode : Obligations.SpecWordsDecode := by
  unfold Obligations.SpecWordsDecode
  decide

end Sys2Proof

namespace Sys2Proof.Machine

/-! Answers. -/

/-- The response word has a request word's three fields: the status, 0 and the value (R93). -/
theorem responseWord_fields (st : Status) (v : Value) :
    clsField (responseWord st v) = st.code ∧ fnField (responseWord st v) = 0 ∧ argField (responseWord st v) = v := by
  rw [responseWord, clsField_append, fnField_append, argField_append]
  have hcode : (st.code ++ 0#4 : BitVec 8).extractLsb' 4 4 = st.code := by cases st <;> decide
  have hzero : (st.code ++ 0#4 : BitVec 8).extractLsb' 0 4 = 0 := by cases st <;> decide
  exact ⟨hcode, hzero, rfl⟩

/-- Settles O5: the fields of an appended word; the words and the codes are evaluated. -/
theorem responseWordLayout : Obligations.ResponseWordLayout := by
  refine ⟨responseWord_fields, by decide, fun st => ?_⟩
  cases st <;> decide

/-- Responding changes its port and the trace, and nothing else (R93). -/
theorem respond_onlyAnswers (p : PortId) (st : Status) (v : Value) (s : State) :
    onlyAnswers p st v s (respond p st v s) := by
  refine ⟨respond_port_same _ _ _ _, respond_trace _ _ _ _, ?_, ?_, ?_, respond_pwr _ _ _ _, ?_,
    fun q _ => respond_pin _ _ _ _ q, fun q hq => respond_port_ne _ _ _ hq, respond_teardown _ _ _ _⟩
  · simp [keepsInputs]
  · simp [keepsBinding]
  · simp [keepsHold]
  · simp [keepsStraps]

/-- A word that selects no row of the opcode map is illegal (R100). -/
theorem decode_error_of_no_row {p : PortId} {w : Word} (h : ∀ r ∈ opcodeMap, r.selects p w = false) :
    ∃ e, decode p w = .error e := by
  cases hd : decode p w with
  | error e => exact ⟨e, rfl⟩
  | ok i =>
    obtain ⟨r, hr, hsel⟩ := (decodes_iff_selects p w).1 ⟨i, hd⟩
    exact absurd hsel (by simp [h r hr])

/-- Settles O7: a word that selects no row does not decode, and its service is the response. -/
theorem illegalWordIsAnswered : Obligations.IllegalWordIsAnswered := by
  intro s p w rest hagenda hreq hrow
  obtain ⟨e, hd⟩ := decode_error_of_no_row hrow
  have hserve := serve_illegal (s := { s with agenda := rest }) (by rwa [withAgenda_port]) hd
  exact ⟨_, (step_agenda hagenda).trans hserve, respond_port_same _ _ _ _, respond_onlyAnswers _ _ _ _⟩

end Sys2Proof.Machine
end

section
/-! SUPPORT. The Bit Transfer Interface and PU_EXPIRE (spec/40_bit_transfer.md): what a transfer and the timer leave alone,
and what each adds to the trace. -/

namespace Sys2Proof.Machine

/-! What no bit transfer and no expiry writes (R129, R211). -/

/-- Everything but PEND, SEQ, the timer, the pin table, BT, the trace and the free values is as it was. -/
structure TransferFrame (s t : State) : Prop where
  binding : keepsBinding s t
  pwr : t.pwr = s.pwr
  straps : keepsStraps s t
  ports : keepsPortsBut .bt s t
  agenda : t.agenda = s.agenda
  answers : t.answers = s.answers

theorem TransferFrame.of_fields (s : State) (d : Duration) (q : Seq) (e : Nat) (m : Memory) (b : PortState)
    (l : List Event) (n : Nat) :
    TransferFrame s
      { s with pend := d, seq := q, elapsed := e, pins := m, bt := b, trace := l, draws := n } where
  binding := ⟨rfl, rfl, rfl, rfl⟩
  pwr := rfl
  straps := ⟨rfl, rfl, rfl, rfl, rfl, rfl⟩
  ports := by
    refine ⟨fun p hp => ?_, rfl⟩
    cases p with
    | cc => rfl
    | bt => exact absurd rfl hp
    | pm => rfl
  agenda := rfl
  answers := rfl

theorem TransferFrame.refl (s : State) : TransferFrame s s := .of_fields s _ _ _ _ _ _ _

theorem writePin_frame (s : State) (p : PinId) (r : Pin) (e : Event) : TransferFrame s ((s.writePin p r).emit e) :=
  .of_fields s _ _ _ _ _ _ _

/-- An answer on BT is within the frame. -/
theorem TransferFrame.respond {s u : State} (h : TransferFrame s u) (st : Status) (v : Value) :
    TransferFrame s (respond .bt st v u) := by
  obtain ⟨hb, hp, hs, ⟨hports, ht⟩, ha, hn⟩ := h
  exact ⟨hb, hp, hs, ⟨fun q hq => (respond_port_ne st v u hq).trans (hports q hq), ht⟩, ha, hn⟩

theorem keepsPinsBut_respond {ps : List PinId} {s u : State} (h : keepsPinsBut ps s u) (p : PortId) (st : Status)
    (v : Value) : keepsPinsBut ps s (respond p st v u) :=
  fun q hq => (respond_pin p st v u q).trans (h q hq)

/-! Events. -/

theorem emits_respond {s u : State} {es : List Event} (h : emits s u es) (p : PortId) (st : Status) (v : Value) :
    emits s (respond p st v u) (es ++ [.resp p st v]) := by
  simp only [emits] at h ⊢
  rw [respond_trace, h, List.append_assoc]

theorem emits_trans {s t u : State} {es fs : List Event} (h : emits s t es) (h' : emits t u fs) :
    emits s u (es ++ fs) := by
  simp only [emits] at h h' ⊢
  rw [h', h, List.append_assoc]

/-- A state that writes one row, emits one event and answers on BT. -/
theorem writePin_answered (s : State) (p : PinId) (r : Pin) (e : Event) (v : Value) :
    (respond .bt .ok v ((s.writePin p r).emit e)).pin p = r ∧
      emits s (respond .bt .ok v ((s.writePin p r).emit e)) [e, .resp .bt .ok v] := by
  obtain ⟨hrow, _, hevent⟩ := writePin_emit_spec s p r e
  exact ⟨(respond_pin _ _ _ _ p).trans hrow, emits_respond hevent .bt .ok v⟩

/-! READ_BIT (R120). -/

/-- `PinGet`, said once: one event with the level of the line, or with the next free value where there is none (R64). -/
theorem pinGet_spec (p : PinId) (s : State) : ∃ v n, pinGet p s = (v, { s with draws := n }.emit (.get p v)) ∧
    (lineLevel s p = some v ∨ (lineLevel s p = none ∧ v = Config.lineDraw s.draws)) ∧
    n = if lineLevel s p = none then s.draws + 1 else s.draws := by
  cases h : lineLevel s p with
  | none => exact ⟨_, _, pinGet_draw h, .inr ⟨rfl, rfl⟩, rfl⟩
  | some v => exact ⟨v, _, pinGet_known h, .inl rfl, rfl⟩

/-- Settles O13: an unbound block only answers, and of a bound one `PinGet` changes nothing but trace and free values. -/
theorem readBitAnswersTheLevel : Obligations.ReadBitAnswersTheLevel := by
  intro s
  refine ⟨fun hm => ⟨_, exec_readBit_unbound hm, respond_onlyAnswers _ _ _ _⟩, fun hm => ?_⟩
  obtain ⟨v, n, hget, hlevel, hdraws⟩ := pinGet_spec s.main s
  have hexec := exec_readBit_bound hm
  rw [hget] at hexec
  have hframe : TransferFrame s ({ s with draws := n }.emit (.get s.main v)) := .of_fields s _ _ _ _ _ _ _
  have hevent : emits s ({ s with draws := n }.emit (.get s.main v)) [.get s.main v] := rfl
  obtain ⟨hb, hp, hs, hports, ha, hn⟩ := hframe.respond .ok (levelValue v)
  exact ⟨_, v, hexec, hlevel, respond_port_same _ _ _ _, emits_respond hevent _ _ _, ha, hn, hdraws, hb,
    by simp [keepsHold], hp, hs, fun _ _ => rfl, hports⟩

/-! WRITE_BIT (R121). -/

/-- A write to the main pin is a new row and one event, which is no response. -/
theorem writeMain_row (v : Bit) (s : State) : ∃ r e, writeMain v s = (s.writePin s.main r).emit e ∧
    ∀ p st w, e ≠ .resp p st w := by
  rcases writeMain_cases v s with ⟨_, h⟩ | ⟨_, _, h⟩ | ⟨_, _, h⟩ <;> exact ⟨_, _, h, nofun⟩

/-- Settles O14: the strategy of the mode writes the main pin's row, and the answer follows. -/
theorem writeBitFollowsTheMode : Obligations.WriteBitFollowsTheMode := by
  intro s v
  refine ⟨fun hm => ⟨_, exec_writeBit_unbound hm, respond_onlyAnswers _ _ _ _⟩, fun hm =>
    ⟨_, exec_writeBit_bound hm, respond_port_same _ _ _ _, ?_, ?_, ?_, ?_⟩⟩
  · intro hdrv
    rw [writeMain_drv hdrv]
    exact writePin_answered _ _ _ _ _
  · rintro hod rfl
    rw [writeMain_od_one hod]
    exact writePin_answered _ _ _ _ _
  · rintro hod rfl
    rw [writeMain_od_zero hod]
    exact writePin_answered _ _ _ _ _
  · obtain ⟨r, e, he, _⟩ := writeMain_row v s
    rw [he]
    obtain ⟨_, hpins, _⟩ := writePin_emit_spec s s.main r e
    obtain ⟨hb, hp, hs, hports, ha, hn⟩ := (writePin_frame s s.main r e).respond .ok 0
    exact ⟨⟨ha, hn, by simp⟩, hb, by simp [keepsHold], hp, hs, keepsPinsBut_respond hpins _ _ _, hports⟩

/-! SET_PULLUP and PU_EXPIRE (R122 to R125, R127). -/

@[simp] theorem startHold_main (s : State) : (startHold s).main = s.main := by simp [startHold]

@[simp] theorem startHold_pend (s : State) : (startHold s).pend = s.pend := by simp [startHold]

@[simp] theorem startHold_draws (s : State) : (startHold s).draws = s.draws := by simp [startHold]

theorem armed_frame (s : State) (d : Duration) : TransferFrame s { s with pend := d } := .of_fields s _ _ _ _ _ _ _

theorem startHold_frame (s : State) : TransferFrame s (startHold s) := .of_fields s _ _ _ _ _ _ _

theorem startHold_keepsPinsBut (s : State) : keepsPinsBut [s.main] s (startHold s) := writePin_keepsPinsBut s s.main _

theorem startHold_mainPin (s : State) : (startHold s).pin s.main = { s.pin s.main with dir := .output, out := 1 } :=
  writePin_pin_same s s.main _

theorem startHold_port (s : State) (p : PortId) : (startHold s).port p = s.port p := by
  cases p <;> simp [State.port, startHold]

theorem endHold_frame (s : State) : TransferFrame s (endHold s) := .of_fields s _ _ _ _ _ _ _

theorem endHold_keepsPinsBut (s : State) : keepsPinsBut [s.main] s (endHold s) := writePin_keepsPinsBut s s.main _

theorem endHold_mainPin (s : State) : (endHold s).pin s.main = { s.pin s.main with dir := .input } :=
  writePin_pin_same s s.main _

/-- Settles O15: arming writes PEND and answers. -/
theorem armStoresTheDuration : Obligations.ArmStoresTheDuration := by
  intro s d hm hod hd
  obtain ⟨hb, hp, hs, hports, ha, hn⟩ := (armed_frame s d).respond .ok 0
  exact ⟨_, exec_setPullup_arm hm hod hd, rfl, respond_port_same _ _ _ _, rfl, rfl, rfl, ⟨ha, hn, rfl⟩, hb, hp, hs,
    fun _ _ => rfl, hports⟩

/-- Settles O16: with nothing pending firing answers, with a duration pending it starts the hold. -/
theorem fireStartsTheHold : Obligations.FireStartsTheHold := by
  intro s hm hod
  refine ⟨fun hp => ⟨_, exec_setPullup_idle hm hod hp, respond_onlyAnswers _ _ _ _⟩, fun hp => ?_⟩
  obtain ⟨hb, hpwr, hs, ⟨_, ht⟩, ha, hn⟩ := startHold_frame s
  exact ⟨_, exec_setPullup_fire hm hod hp, rfl, startHold_pend s, rfl, startHold_mainPin s, startHold_trace s,
    startHold_port s, ht, ⟨ha, hn, startHold_draws s⟩, hb, hpwr, hs, startHold_keepsPinsBut s⟩

/-- Settles O17: once enabled the expiry is the end of the hold, and before it changes nothing. -/
theorem expireEndsTheHold : Obligations.ExpireEndsTheHold := by
  intro s
  refine ⟨fun hs he => ?_, fun h => congrArg Host.Outcome.next (puExpire_disabled h)⟩
  obtain ⟨hb, hpwr, hst, hports, ha, hn⟩ := endHold_frame s
  exact ⟨_, congrArg Host.Outcome.next (puExpire_enabled hs he), rfl, rfl, rfl, endHold_mainPin s, rfl, endHold_trace s,
    ⟨ha, hn, rfl⟩, hb, hpwr, hst, endHold_keepsPinsBut s, hports⟩

/-- Settles O19: in driven mode SET_PULLUP is its answer. -/
theorem drivenModeHasNoPullup : Obligations.DrivenModeHasNoPullup :=
  fun _ _ _ hdrv => ⟨_, exec_setPullup_drv hdrv, respond_onlyAnswers _ _ _ _⟩

/-! The three commands together. -/

/-- BT carries three commands (R95). -/
theorem transfer_forms {i : Instr} (h : i.port = .bt) :
    i = .readBit ∨ (∃ v, i = .writeBit v) ∨ ∃ d, i = .setPullup d := by
  cases i with
  | readBit => exact .inl rfl
  | writeBit v => exact .inr (.inl ⟨v, rfl⟩)
  | setPullup d => exact .inr (.inr ⟨d, rfl⟩)
  | bind | unbind | querypin | suspend | resume => cases h

theorem exec_transfer_unbound {i : Instr} {s : State} (hi : i.port = .bt) (hm : s.main = noPin) :
    exec i s = .next (respond .bt .ok 0 s) := by
  rcases transfer_forms hi with rfl | ⟨v, rfl⟩ | ⟨d, rfl⟩
  · exact exec_readBit_unbound hm
  · exact exec_writeBit_unbound hm
  · exact exec_setPullup_unbound hm

/-- Settles O18: with no main pin each transfer is its answer. -/
theorem unboundTransfersAreNeutral : Obligations.UnboundTransfersAreNeutral :=
  fun _ _ hi hm => ⟨_, exec_transfer_unbound hi hm, respond_onlyAnswers _ _ _ _⟩

/-- What a transfer does before its answer: no hold starts or ends, nothing outside the frame changes, and no event is a
response. -/
structure TransferBody (s u : State) : Prop where
  seq : u.seq = s.seq
  frame : TransferFrame s u
  silent : ∃ es, emits s u es ∧ ∀ p st v, Event.resp p st v ∉ es

theorem TransferBody.nothing (s : State) : TransferBody s s :=
  ⟨rfl, .refl s, [], (List.append_nil _).symm, fun _ _ _ => List.not_mem_nil⟩

theorem TransferBody.pinGet (p : PinId) (s : State) : TransferBody s (pinGet p s).2 := by
  obtain ⟨v, n, h⟩ := pinGet_cases p s
  rw [h]
  exact ⟨rfl, .of_fields s _ _ _ _ _ _ _, _, rfl, by simp⟩

theorem TransferBody.writeMain (v : Bit) (s : State) : TransferBody s (writeMain v s) := by
  obtain ⟨r, e, h, he⟩ := writeMain_row v s
  rw [h]
  exact ⟨rfl, .of_fields s _ _ _ _ _ _ _, [e], rfl, fun p st w hw => he p st w (List.mem_singleton.1 hw).symm⟩

theorem TransferBody.arm (s : State) (d : Duration) : TransferBody s { s with pend := d } :=
  { TransferBody.nothing s with frame := armed_frame s d }

/-- A transfer, said once: a body and then the answer OK, or the start of a hold (R120 to R127). -/
theorem transfer_cases {i : Instr} (hi : i.port = .bt) (s : State) :
    (∃ v u, exec i s = .next (respond .bt .ok v u) ∧ TransferBody s u) ∨ exec i s = .next (startHold s) := by
  by_cases hm : s.main = noPin
  · exact .inl ⟨_, _, exec_transfer_unbound hi hm, .nothing s⟩
  rcases transfer_forms hi with rfl | ⟨v, rfl⟩ | ⟨d, rfl⟩
  · exact .inl ⟨_, _, exec_readBit_bound hm, .pinGet _ _⟩
  · exact .inl ⟨_, _, exec_writeBit_bound hm, .writeMain _ _⟩
  · rcases exec_setPullup_cases d s with he | ⟨_, _, _, he⟩ | ⟨_, _, _, _, he⟩
    · exact .inl ⟨_, _, he, .nothing s⟩
    · exact .inl ⟨_, _, he, .arm s d⟩
    · exact .inr he

/-- The events a step added are what is left of its trace without the trace before it (R40). -/
theorem drop_of_emits {s t : State} {es : List Event} (h : emits s t es) : t.trace.drop s.trace.length = es := by
  simp only [emits] at h
  rw [h, List.drop_left]

/-- Settles O21: the only response of a transfer is its answer, with status OK; the start of a hold has none. -/
theorem transfersNeverReportAnError : Obligations.TransfersNeverReportAnError := by
  intro s i hi
  rcases transfer_cases hi s with ⟨v, u, he, hbody⟩ | he
  · obtain ⟨es, hes, hsilent⟩ := hbody.silent
    refine ⟨_, he, ?_⟩
    rw [drop_of_emits (emits_respond hes _ _ _)]
    rintro e hmem p st w rfl
    rcases List.mem_append.1 hmem with hbefore | hanswer
    · exact absurd hbefore (hsilent p st w)
    · cases List.mem_singleton.1 hanswer
      exact ⟨rfl, rfl⟩
  · refine ⟨_, he, ?_⟩
    rw [drop_of_emits (startHold_trace s)]
    rintro e hmem p st w rfl
    simp at hmem

/-! AUX, HANDLE and PWR (R129). -/

/-- The same state with other values in PWR, HANDLE and AUX. -/
def State.withPower (s : State) (b : Bit) (h : Option Handle) (a : PinId) : State :=
  { s with pwr := b, handle := h, aux := a }

theorem writeMain_withPower (v : Bit) (s : State) (b : Bit) (h : Option Handle) (a : PinId) :
    writeMain v (s.withPower b h a) = (writeMain v s).withPower b h a := by
  rcases mode_cases s.mode with hod | hdrv
  · rcases bit_cases v with rfl | rfl
    · rw [writeMain_od_zero hod, writeMain_od_zero (s := s.withPower b h a) hod]
      rfl
    · rw [writeMain_od_one hod, writeMain_od_one (s := s.withPower b h a) hod]
      rfl
  · rw [writeMain_drv hdrv, writeMain_drv (s := s.withPower b h a) hdrv]
    rfl

theorem exec_writeBit_withPower (v : Bit) (s : State) (b : Bit) (h : Option Handle) (a : PinId) :
    ∃ t, exec (.writeBit v) s = .next t ∧ exec (.writeBit v) (s.withPower b h a) = .next (t.withPower b h a) := by
  by_cases hm : s.main = noPin
  · exact ⟨_, exec_writeBit_unbound hm, exec_writeBit_unbound hm⟩
  · have hother := exec_writeBit_bound (s := s.withPower b h a) (v := v) hm
    rw [writeMain_withPower] at hother
    exact ⟨_, exec_writeBit_bound hm, hother⟩

theorem exec_setPullup_withPower (d : Duration) (s : State) (b : Bit) (h : Option Handle) (a : PinId) :
    ∃ t, exec (.setPullup d) s = .next t ∧ exec (.setPullup d) (s.withPower b h a) = .next (t.withPower b h a) := by
  by_cases hm : s.main = noPin
  · exact ⟨_, exec_setPullup_unbound hm, exec_setPullup_unbound hm⟩
  rcases mode_cases s.mode with hod | hdrv
  · by_cases hd : d = 0
    · subst hd
      by_cases hp : s.pend = 0
      · exact ⟨_, exec_setPullup_idle hm hod hp, exec_setPullup_idle hm hod hp⟩
      · exact ⟨_, exec_setPullup_fire hm hod hp, exec_setPullup_fire hm hod hp⟩
    · exact ⟨_, exec_setPullup_arm hm hod hd, exec_setPullup_arm hm hod hd⟩
  · exact ⟨_, exec_setPullup_drv hdrv, exec_setPullup_drv hdrv⟩

/-- Settles O22: MAIN, MODE and PEND decide each outcome, and no outcome touches the three registers. -/
theorem writesIgnorePowerAndRegistration : Obligations.WritesIgnorePowerAndRegistration := by
  rintro s i b h a (⟨v, rfl⟩ | ⟨d, rfl⟩)
  · exact exec_writeBit_withPower v s b h a
  · exact exec_setPullup_withPower d s b h a

/-! The two phases (R128). -/

/-- In a hold TICKs only count (R261). -/
theorem iterate_tick_inHold {s : State} (hs : s.seq = .puHold) (n : Nat) :
    Nat.iterate tick n s = { s with elapsed := s.elapsed + n } := by
  induction n generalizing s with
  | zero => rfl
  | succ n ih =>
    rw [Function.iterate_succ_apply, tick_inHold hs, ih (s := { s with elapsed := s.elapsed + 1 }) hs, Nat.add_assoc,
      Nat.add_comm 1 n]

/-- A hold just started, after n TICKs. -/
def heldFor (n : Nat) (s : State) : State := { startHold s with elapsed := n }

theorem heldFor_main (n : Nat) (s : State) : (heldFor n s).main = s.main := startHold_main s

theorem iterate_tick_startHold (s : State) (n : Nat) : Nat.iterate tick n (startHold s) = heldFor n s := by
  rw [iterate_tick_inHold rfl, show (startHold s).elapsed = 0 from rfl, Nat.zero_add, heldFor]

/-- After fewer TICKs than PEND the expiry does nothing (R125). -/
theorem puExpire_heldFor_lt {s : State} {n : Nat} (h : n < s.pend.toNat) : puExpire (heldFor n s) = heldFor n s :=
  puExpire_disabled (.inr (by simpa [heldFor] using h))

/-- After PEND TICKs it ends the hold (R125). -/
theorem puExpire_heldFor_pend (s : State) : puExpire (heldFor s.pend.toNat s) = endHold (heldFor s.pend.toNat s) :=
  puExpire_enabled rfl (Nat.le_refl _)

/-- The trace of a hold, from the firing SET_PULLUP to its answer (R124, R125). -/
theorem endHold_heldFor_emits (s : State) (n : Nat) : emits s (endHold (heldFor n s))
    [.dirOut s.main 1, .wait s.pend, .dirIn s.main, .resp .bt .ok 0] := by
  simp [emits, endHold_trace, heldFor, startHold_trace]

theorem endHold_heldFor_keepsBinding (s : State) (n : Nat) : keepsBinding s (endHold (heldFor n s)) := by
  simp [keepsBinding, endHold, heldFor, startHold]

/-- A hold fired with PEND = d and run out: the pin high, then input, nothing pending (R124, R125). -/
theorem hold_runs_out {s : State} (hm : s.main ≠ noPin) (hod : s.mode = .od) (hp : s.pend ≠ 0) :
    ∃ b e, exec (.setPullup 0) s = .next b ∧ (b.pin s.main).dir = .output ∧ (b.pin s.main).out = 1 ∧
      (∀ n < s.pend.toNat, puExpire (Nat.iterate tick n b) = Nat.iterate tick n b) ∧
      puExpire (Nat.iterate tick s.pend.toNat b) = e ∧ (e.pin s.main).dir = .input ∧
      emits s e [.dirOut s.main 1, .wait s.pend, .dirIn s.main, .resp .bt .ok 0] ∧
      keepsBinding s e ∧ e.pend = 0 ∧ e.seq = .idle := by
  refine ⟨startHold s, endHold (heldFor s.pend.toNat s), exec_setPullup_fire hm hod hp, ?_, ?_, ?_, ?_, ?_,
    endHold_heldFor_emits s _, ?_, rfl, rfl⟩
  · rw [startHold_mainPin]
  · rw [startHold_mainPin]
  · intro n hn
    rw [iterate_tick_startHold, puExpire_heldFor_lt hn]
  · rw [iterate_tick_startHold, puExpire_heldFor_pend]
  · have hrow := endHold_mainPin (heldFor s.pend.toNat s)
    rw [heldFor_main] at hrow
    rw [hrow]
  · exact endHold_heldFor_keepsBinding s _

/-- Settles O20: arm, then a hold that runs out, then a fire with nothing pending. -/
theorem strongPullupTwoPhases : Obligations.StrongPullupTwoPhases := by
  intro s d hm hod _ hd
  obtain ⟨b, e, hfire, hdir, hout, hearly, hexpire, hin, hemits, ⟨hmain, _, hmode, _⟩, hpend, hseq⟩ :=
    hold_runs_out (s := respond .bt .ok 0 { s with pend := d }) hm hod hd
  have harmed : emits s (respond .bt .ok 0 { s with pend := d }) [.resp .bt .ok 0] := rfl
  have hagain := exec_setPullup_idle (hmain ▸ hm) (hmode.trans hod) hpend
  exact ⟨_, b, e, _, exec_setPullup_arm hm hod hd, fun _ _ => rfl, harmed, hfire, hdir, hout,
    fun n hn => congrArg Host.Outcome.next (hearly n hn), congrArg Host.Outcome.next hexpire, hin, hpend,
    emits_trans harmed hemits, hagain, rfl, hseq, fun _ _ => rfl⟩

end Sys2Proof.Machine
end

section
/-! SUPPORT. The machine left to itself comes to rest (spec/40_bit_transfer.md R125, spec/60_exceptions.md R205,
spec/70_reset_and_hazards.md R251, R252): each move the block can make by itself goes on and does some of the work that is
pending. -/

namespace Sys2Proof.Machine

/-! The pending work. -/

/-- What BT and the hold need (R124, R125): the part of the pending work a bit transfer can change. -/
def State.btWork (s : State) : Nat :=
  if s.holding then s.pend.toNat - s.elapsed + 1 else if s.bt.req.isSome then s.pend.toNat + 2 else 0

theorem pendingWork_eq (s : State) : s.pendingWork =
    countOne s.cc.req.isSome + countOne s.pm.req.isSome + countOne s.teardown + s.btWork := rfl

theorem holding_iff {s : State} : s.holding = true ↔ s.seq = .puHold := by
  simp [State.holding]

theorem not_holding_iff {s : State} : s.holding = false ↔ s.seq = .idle := by
  cases h : s.seq <;> simp [State.holding, h]

theorem btWork_inHold {s : State} (hs : s.seq = .puHold) : s.btWork = s.pend.toNat - s.elapsed + 1 :=
  if_pos (holding_iff.2 hs)

theorem btWork_idle {s : State} (hs : s.seq = .idle) :
    s.btWork = if s.bt.req.isSome = true then s.pend.toNat + 2 else 0 := by
  simp only [State.btWork, not_holding_iff.2 hs, Bool.false_eq_true, if_false]

/-- Serving CC or PM or the TEARDOWN signal leaves this alone, but for the answer itself. -/
structure WorkKept (s u : State) : Prop where
  hold : keepsHold s u
  ports : ∀ p, u.port p = s.port p
  teardown : u.teardown = s.teardown
  agenda : u.agenda = s.agenda

theorem WorkKept.refl (s : State) : WorkKept s s := ⟨⟨rfl, rfl, rfl⟩, fun _ => rfl, rfl, rfl⟩

theorem WorkKept.hwInit (p a : PinId) (m : Mode) (s : State) : WorkKept s (hwInit p a m s).2 := by
  rcases hwInit_cases p a m s with ⟨_, hb⟩ | ⟨_, hr⟩
  · exact ⟨hb.hold, hb.ports, hb.teardown, hb.agenda⟩
  · exact ⟨hr.hold, hr.ports, hr.teardown, hr.agenda⟩

theorem WorkKept.hwExit (s : State) : WorkKept s (hwExitSteps s) := by
  have h := hwExitSteps_exited s
  exact ⟨h.hold, h.ports, h.teardown, h.inputs.1⟩

theorem WorkKept.hookCap (v : Bit) (s : State) : WorkKept s (hookCap v s) := by
  by_cases h : s.cfgCap = true ∧ s.main ≠ noPin
  · rw [hookCap_acts h]
    exact ⟨⟨rfl, rfl, rfl⟩, capSet_port v s, rfl, rfl⟩
  · rw [hookCap_idle h]
    exact .refl s

theorem WorkKept.requests {s u : State} (h : WorkKept s u) :
    u.cc.req = s.cc.req ∧ u.bt.req = s.bt.req ∧ u.pm.req = s.pm.req :=
  ⟨congrArg PortState.req (h.ports .cc), congrArg PortState.req (h.ports .bt), congrArg PortState.req (h.ports .pm)⟩

/-- PEND, SEQ, the timer and BT's request are all that the work of BT and the hold depends on. -/
theorem btWork_congr {s t : State} (h : keepsHold s t) (hreq : t.bt.req = s.bt.req) : t.btWork = s.btWork := by
  obtain ⟨hpend, hseq, helapsed⟩ := h
  unfold State.btWork State.holding
  rw [hpend, hseq, helapsed, hreq]

/-! One move. -/

/-- The move goes on, does some of the pending work, and leaves the agenda alone. -/
def Progress (s : State) (o : Host.Outcome State Fault Refusal) : Prop :=
  ∃ t, o = .next t ∧ t.pendingWork < s.pendingWork ∧ t.agenda = s.agenda

/-- An answer on CC or PM is one request less. -/
theorem answerOffBt_progress {s u : State} {p : PortId} (hu : WorkKept s u) (hp : p ≠ .bt)
    (hreq : (s.port p).req.isSome = true) (st : Status) (v : Value) : Progress s (.next (respond p st v u)) := by
  obtain ⟨hcc, hbt, hpm⟩ := hu.requests
  refine ⟨_, rfl, ?_, (respond_agenda _ _ _ _).trans hu.agenda⟩
  have hwork : (respond p st v u).btWork = s.btWork := by
    refine btWork_congr (by simpa [keepsHold] using hu.hold) ?_
    simpa [respond, hp] using hbt
  rw [pendingWork_eq, pendingWork_eq, hwork, respond_teardown, hu.teardown]
  cases p with
  | cc =>
    have hs : s.cc.req.isSome = true := hreq
    simp [respond, hpm, hs, countOne]
  | bt => exact absurd rfl hp
  | pm =>
    have hs : s.pm.req.isSome = true := hreq
    simp [respond, hcc, hs, countOne]

/-- Outside a hold an answer on BT is BT's work done. -/
theorem answerBt_progress {s u : State} (hu : TransferBody s u) (hs : s.seq = .idle)
    (hreq : s.bt.req.isSome = true) (st : Status) (v : Value) : Progress s (.next (respond .bt st v u)) := by
  have hframe := hu.frame.respond st v
  obtain ⟨hports, hteardown⟩ := hframe.ports
  have hcc : (respond .bt st v u).cc = s.cc := hports .cc nofun
  have hpm : (respond .bt st v u).pm = s.pm := hports .pm nofun
  refine ⟨_, rfl, ?_, hframe.agenda⟩
  have hdone : (respond .bt st v u).btWork = 0 := by
    rw [btWork_idle ((respond_seq _ _ _ _).trans (hu.seq.trans hs))]
    rfl
  have howed : 0 < s.btWork := by
    rw [btWork_idle hs, if_pos hreq]
    omega
  rw [pendingWork_eq, pendingWork_eq, hdone, hcc, hpm, hteardown]
  omega

/-- A hold just started needs a TICK for each of PEND and its end, one step less than the request did (R124, R125). -/
theorem startHold_progress {s : State} (hs : s.seq = .idle) (hreq : s.bt.req.isSome = true) :
    Progress s (.next (startHold s)) := by
  refine ⟨_, rfl, ?_, (startHold_frame s).agenda⟩
  have hstarted : (startHold s).btWork = s.pend.toNat + 1 := by
    rw [btWork_inHold rfl, startHold_pend]
    rfl
  have howed : s.btWork = s.pend.toNat + 2 := by
    rw [btWork_idle hs, if_pos hreq]
  have hteardown : (startHold s).teardown = s.teardown := (startHold_frame s).ports.2
  have hcc : (startHold s).cc = s.cc := startHold_port s .cc
  have hpm : (startHold s).pm = s.pm := startHold_port s .pm
  rw [pendingWork_eq, pendingWork_eq, hstarted, howed, hcc, hpm, hteardown]
  omega

/-- The TEARDOWN signal served is one signal less. -/
theorem clearTeardown_progress {s u : State} (hu : WorkKept s u) (ht : s.teardown = true) :
    Progress s (.next (clearTeardown u)) := by
  obtain ⟨hcc, hbt, hpm⟩ := hu.requests
  refine ⟨_, rfl, ?_, hu.agenda⟩
  have hwork : (clearTeardown u).btWork = s.btWork := btWork_congr hu.hold hbt
  rw [pendingWork_eq, pendingWork_eq, hwork]
  simp [clearTeardown, hcc, hpm, ht, countOne]

/-- A TICK before the hold may end is one TICK less to wait for. -/
theorem tick_progress {s : State} (hs : s.seq = .puHold) (he : s.elapsed < s.pend.toNat) :
    Progress s (.next (tick s)) := by
  rw [tick_inHold hs]
  refine ⟨_, rfl, ?_, rfl⟩
  have hticked : State.btWork { s with elapsed := s.elapsed + 1 } = s.pend.toNat - (s.elapsed + 1) + 1 :=
    btWork_inHold hs
  rw [pendingWork_eq, pendingWork_eq, hticked, btWork_inHold hs]
  dsimp only
  omega

/-- The end of a hold leaves BT nothing to do. -/
theorem endHold_progress {s : State} (hs : s.seq = .puHold) : Progress s (.next (endHold s)) := by
  obtain ⟨_, _, _, ⟨hports, hteardown⟩, hagenda, _⟩ := endHold_frame s
  refine ⟨_, rfl, ?_, hagenda⟩
  have hdone : (endHold s).btWork = 0 := by
    rw [btWork_idle rfl]
    rfl
  have hcc : (endHold s).cc = s.cc := hports .cc nofun
  have hpm : (endHold s).pm = s.pm := hports .pm nofun
  rw [pendingWork_eq, pendingWork_eq, hdone, btWork_inHold hs, hcc, hpm, hteardown]
  omega

/-! The moves the block makes by itself. -/

/-- A command off BT, an UNBIND in a hold aside, ends in an answer on its port and keeps the work of the others. -/
theorem exec_offBt {i : Instr} {s : State} (hi : i.port ≠ .bt) (hheld : s.unbindHeld = true → i ≠ .unbind) :
    ∃ st v u, exec i s = .next (respond i.port st v u) ∧ WorkKept s u := by
  cases i with
  | bind p => exact ⟨_, _, _, exec_bind p s, .hwInit _ _ _ s⟩
  | unbind =>
    by_cases hm : s.main = noPin
    · exact ⟨_, _, _, exec_unbind_unbound hm, .refl s⟩
    · have hs : s.seq = .idle := (seq_cases s.seq).resolve_right fun hs =>
        hheld (by simp [State.unbindHeld, State.bound, State.holding, hm, hs]) rfl
      exact ⟨_, _, _, exec_unbind_bound hm hs, .hwExit s⟩
  | querypin => exact ⟨_, _, _, exec_querypin s, .refl s⟩
  | readBit | writeBit | setPullup => exact absurd rfl hi
  | suspend => exact ⟨_, _, _, exec_suspend s, .hookCap 0 s⟩
  | resume => exact ⟨_, _, _, exec_resume s, .hookCap 1 s⟩

/-- Serving CC or PM, where the request is not a held UNBIND. -/
theorem serveOffBt_progress {p : PortId} {s : State} (hp : p ≠ .bt) (hreq : (s.port p).req.isSome = true)
    (hheld : ∀ w, (s.port p).req = some w → s.unbindHeld = true → decode p w ≠ .ok .unbind) :
    Progress s (serve p s) := by
  rcases serve_cases p s with ⟨hnone, _⟩ | ⟨w, e, _, _, he⟩ | ⟨w, i, hw, hd, he⟩
  · simp [hnone] at hreq
  · rw [he]
    exact answerOffBt_progress (.refl s) hp hreq _ _
  · obtain rfl := port_of_decode hd
    obtain ⟨st, v, u, hexec, hu⟩ :=
      exec_offBt hp fun h hi => hheld w hw h (hi ▸ hd)
    rw [he, if_neg fun h => hp (portInHold_iff.1 h).1, hexec]
    exact answerOffBt_progress hu hp hreq st v

/-- CC can be served if its request is not a held UNBIND (R205). -/
theorem ccReady_iff {s : State} : s.ccReady = true ↔
    s.cc.req.isSome = true ∧ ∀ w, s.cc.req = some w → s.unbindHeld = true → decode .cc w ≠ .ok .unbind := by
  unfold State.ccReady
  cases s.cc.req with
  | none => simp
  | some w =>
    cases hd : decode .cc w with
    | error e => simp [hd]
    | ok i => cases i <;> simp [hd]

/-- Outside a hold no UNBIND is held (R205). -/
theorem ccReady_idle {s : State} (hs : s.seq = .idle) : s.ccReady = s.cc.req.isSome := by
  unfold State.ccReady State.unbindHeld
  rw [not_holding_iff.2 hs, Bool.and_false]
  cases s.cc.req <;> rfl

/-- Serving BT outside a hold. -/
theorem serveBt_progress {s : State} (hs : s.seq = .idle) (hreq : s.bt.req.isSome = true) :
    Progress s (serve .bt s) := by
  rcases serve_cases .bt s with ⟨hnone, _⟩ | ⟨w, e, _, _, he⟩ | ⟨w, i, _, hd, he⟩
  · have hnone' : s.bt.req = none := hnone
    simp [hnone'] at hreq
  · rw [he]
    exact answerBt_progress (.nothing s) hs hreq _ _
  · rw [he, if_neg fun h => absurd ((portInHold_iff.1 h).2.symm.trans hs) nofun]
    rcases transfer_cases (port_of_decode hd) s with ⟨v, u, hexec, hu⟩ | hexec
    · rw [hexec]
      exact answerBt_progress hu hs hreq _ v
    · rw [hexec]
      exact startHold_progress hs hreq

/-- Serving the TEARDOWN signal outside a hold. -/
theorem serveTeardown_progress {s : State} (ht : s.teardown = true) (hs : s.seq = .idle) :
    Progress s (serveTeardown s) := by
  by_cases hm : s.main = noPin
  · rw [serveTeardown_unbound hm]
    exact clearTeardown_progress (.refl s) ht
  · rw [serveTeardown_bound ht hm hs]
    exact clearTeardown_progress (.hwExit s) ht

/-- In a hold the timer's move is its expiry, once it may be taken, and a TICK before. -/
theorem timer_progress {s : State} (hs : s.seq = .puHold) :
    Progress s (perform (if s.expireEnabled = true then .puExpire else .tick) s) := by
  have henabled : s.expireEnabled = true ↔ s.pend.toNat ≤ s.elapsed := by
    simp [State.expireEnabled, State.holding, hs]
  by_cases he : s.pend.toNat ≤ s.elapsed
  · rw [if_pos (henabled.2 he)]
    show Progress s (.next (puExpire s))
    rw [puExpire_enabled hs he]
    exact endHold_progress hs
  · rw [if_neg (mt henabled.1 he)]
    exact tick_progress hs (Nat.not_le.1 he)

/-- Every move the block can make by itself is progress. -/
theorem ready_progress {m : Move} {s : State} (h : m ∈ s.ready) : Progress s (perform m s) := by
  rcases mem_ready.1 h with ⟨hc, rfl⟩ | ⟨hc, rfl⟩ | ⟨hc, rfl⟩ | ⟨hc, rfl⟩ | ⟨hc, rfl⟩
  · obtain ⟨hreq, hheld⟩ := ccReady_iff.1 hc
    exact serveOffBt_progress (p := .cc) nofun hreq hheld
  · rw [Bool.and_eq_true, Bool.not_eq_true', not_holding_iff] at hc
    exact serveBt_progress hc.2 hc.1
  · refine serveOffBt_progress (p := .pm) nofun hc fun w _ _ hd => ?_
    exact absurd (port_of_decode hd) nofun
  · rw [Bool.and_eq_true, Bool.not_eq_true', not_holding_iff] at hc
    exact serveTeardown_progress hc.1 hc.2
  · exact timer_progress (holding_iff.1 hc)

/-! The run. -/

theorem countOne_eq_zero {b : Bool} : countOne b = 0 ↔ b = false := by
  cases b <;> simp [countOne]

/-- If BT and the hold need nothing, no hold runs and BT has no request. -/
theorem idle_of_btWork_zero {s : State} (h : s.btWork = 0) : s.seq = .idle ∧ s.bt.req.isSome = false := by
  rcases seq_cases s.seq with hs | hs
  · rw [btWork_idle hs] at h
    exact ⟨hs, by simpa using h⟩
  · rw [btWork_inHold hs] at h
    exact absurd h (Nat.succ_ne_zero _)

/-- With nothing pending the machine rests. -/
theorem atRest_of_no_work {s : State} (h : s.pendingWork = 0) : s.atRest = true := by
  simp only [pendingWork_eq, Nat.add_eq_zero_iff, countOne_eq_zero] at h
  obtain ⟨⟨⟨hcc, hpm⟩, ht⟩, hwork⟩ := h
  obtain ⟨hs, hbt⟩ := idle_of_btWork_zero hwork
  simp only [State.atRest, ← Option.not_isSome, hcc, hbt, hpm, ht, hs]
  rfl

theorem moveIf_eq_nil {c : Bool} {m : Move} : moveIf c m = [] ↔ c = false := by
  cases c <;> simp [moveIf]

/-- A machine that can make no move by itself has nothing pending: outside a hold nothing is held. -/
theorem no_work_of_not_ready {s : State} (h : s.ready = []) : s.pendingWork = 0 := by
  simp only [State.ready, List.append_eq_nil_iff, moveIf_eq_nil] at h
  obtain ⟨hcc, hbt, hpm, ht, hhold⟩ := h
  have hs : s.seq = .idle := not_holding_iff.1 hhold
  rw [ccReady_idle hs] at hcc
  simp only [hhold, Bool.not_false, Bool.and_true] at hbt ht
  rw [pendingWork_eq, btWork_idle hs, hcc, hbt, hpm, ht]
  rfl

/-- A step of the machine left to itself is progress, unless nothing is pending, and then it rests. -/
theorem step_progress {s : State} (h : s.agenda = []) :
    (s.pendingWork = 0 ∧ step s = .next s) ∨ Progress s (step s) := by
  rcases step_cases s with ⟨m, rest, ha, _⟩ | ⟨_, hr, he⟩ | ⟨m, n, _, hr, he⟩
  · exact absurd (h.symm.trans ha) nofun
  · exact .inl ⟨no_work_of_not_ready hr, he⟩
  · rw [he]
    exact .inr (ready_progress (s := { s with draws := n }) hr)

/-- A run at least as long as the pending work ends at rest. -/
theorem run_to_rest (n : Nat) {s : State} (ha : s.agenda = []) (hn : s.pendingWork ≤ n) :
    ∃ t, Host.Core.run core n s = .next t ∧ t.atRest = true := by
  induction n generalizing s with
  | zero => exact ⟨s, rfl, atRest_of_no_work (Nat.le_zero.1 hn)⟩
  | succ n ih =>
    rcases step_progress ha with ⟨hw, hstep⟩ | ⟨t, hstep, hlt, hagenda⟩
    · rw [run_succ core n hstep]
      exact ih ha (by omega)
    · rw [run_succ core n hstep]
      exact ih (hagenda.trans ha) (by omega)

/-- Settles O54: the run as long as the work that is pending at its start. -/
theorem leftAloneTheMachineComesToRest : Obligations.LeftAloneTheMachineComesToRest :=
  fun s ha => run_to_rest s.pendingWork ha (Nat.le_refl _)

end Sys2Proof.Machine
end

section
/-! SUPPORT. BIND and UNBIND (spec/41_lifecycle.md R140 to R152): the effect of HW_INIT or HW_EXIT, then the answer on CC. -/

namespace Sys2Proof.Machine

/-! What an answer keeps of what went before it. -/

theorem keepsInputs_respond {s u : State} (h : keepsInputs s u) (p : PortId) (st : Status) (v : Value) :
    keepsInputs s (respond p st v u) := by
  simpa [keepsInputs] using h

theorem keepsBinding_respond {s u : State} (h : keepsBinding s u) (p : PortId) (st : Status) (v : Value) :
    keepsBinding s (respond p st v u) := by
  simpa [keepsBinding] using h

theorem keepsHold_respond {s u : State} (h : keepsHold s u) (p : PortId) (st : Status) (v : Value) :
    keepsHold s (respond p st v u) := by
  simpa [keepsHold] using h

theorem keepsStraps_respond {s u : State} (h : keepsStraps s u) (p : PortId) (st : Status) (v : Value) :
    keepsStraps s (respond p st v u) := by
  simpa [keepsStraps] using h

theorem keepsPortsBut_respond {s u : State} (hports : ∀ q, u.port q = s.port q) (ht : u.teardown = s.teardown)
    (p : PortId) (st : Status) (v : Value) : keepsPortsBut p s (respond p st v u) :=
  ⟨fun q hq => (respond_port_ne st v u hq).trans (hports q), (respond_teardown p st v u).trans ht⟩

/-- No two statuses have the same code (R94). -/
theorem Status.code_injective {st st' : Status} (h : st.code = st'.code) : st = st' := by
  revert h
  cases st <;> cases st' <;> decide

/-- An answer names its status: two response words are equal only if their statuses are (R93, R94). -/
theorem status_of_answered {p : PortId} {st st' : Status} {v v' : Value} {s : State}
    (h : answered p st v (respond p st' v' s)) : st' = st := by
  have hport : (⟨none, some (responseWord st' v')⟩ : PortState) = ⟨none, some (responseWord st v)⟩ :=
    (respond_port_same p st' v' s).symm.trans h
  have hword : responseWord st' v' = responseWord st v := Option.some.inj (congrArg PortState.rsp hport)
  apply Status.code_injective
  rw [← (responseWord_fields st' v').1, hword, (responseWord_fields st v).1]

/-- BIND is HW_INIT with the straps, then its answer (R160). -/
theorem exec_bind_of_hwInit {s u : State} {p : PinId} {st : Status} (h : hwInit p s.cfgAuxPin s.cfgMode s = (st, u)) :
    exec (.bind p) s = .next (respond .cc st 0 u) := by
  rw [exec_bind, h]

/-! BIND refused before the engine is asked (R141 to R143). -/

/-- Settles O24: HW_INIT of a bound block changes nothing, so BIND is its answer. -/
theorem bindWhileBoundFails : Obligations.BindWhileBoundFails :=
  fun s _ hm => ⟨_, exec_bind_of_hwInit (hwInit_alreadyBound hm), respond_onlyAnswers .cc .alreadyBound 0 s⟩

theorem pinValid_iff {s : State} {p : PinId} : pinValid s p = true ↔ p.toNat < s.board.npins.toNat := by
  simp [pinValid, BitVec.ult]

theorem pinValid_false_of_out_of_range {s : State} {p : PinId} (h : s.board.npins.toNat ≤ p.toNat ∨ p = noPin) :
    pinValid s p = false := by
  rw [← Bool.not_eq_true]
  intro hv
  rcases h with hge | hnone
  · exact absurd (pinValid_iff.1 hv) (Nat.not_lt.2 hge)
  · exact pinValid_ne_noPin hv hnone

/-- Settles O25: an id out of range is no valid pin, so HW_INIT changes nothing and BIND is its answer. -/
theorem bindOfNoPinFails : Obligations.BindOfNoPinFails :=
  fun s _ hm hp => ⟨_, exec_bind_of_hwInit (hwInit_invalidPin hm (pinValid_false_of_out_of_range hp)),
    respond_onlyAnswers .cc .invalidPin 0 s⟩

/-- Only events are left of a command that has undone what it did: no register, no pin's row and no input differs. -/
structure OnlyEmits (s u : State) (es : List Event) : Prop where
  registers : SameRegisters s u
  inputs : keepsInputs s u
  pins : ∀ q, u.pin q = s.pin q
  events : emits s u es

/-- The answer after a command that only emitted events. -/
theorem OnlyEmits.respond {s u : State} {es : List Event} (h : OnlyEmits s u es) (p : PortId) (st : Status) (v : Value) :
    answered p st v (respond p st v u) ∧ emits s (respond p st v u) (es ++ [.resp p st v]) ∧
      keepsInputs s (respond p st v u) ∧ keepsBinding s (respond p st v u) ∧ keepsHold s (respond p st v u) ∧
      (respond p st v u).pwr = s.pwr ∧ keepsStraps s (respond p st v u) ∧ keepsPinsBut [] s (respond p st v u) ∧
      keepsPortsBut p s (respond p st v u) := by
  obtain ⟨hreg, hinputs, hpins, hevents⟩ := h
  exact ⟨respond_port_same p st v u, emits_respond hevents p st v, keepsInputs_respond hinputs p st v,
    keepsBinding_respond hreg.binding p st v, keepsHold_respond hreg.hold p st v,
    (respond_pwr p st v u).trans hreg.pwr, keepsStraps_respond hreg.straps p st v,
    keepsPinsBut_respond (fun q _ => hpins q) p st v, keepsPortsBut_respond hreg.ports hreg.teardown p st v⟩

/-- A failed acquisition is one event (R54). -/
theorem OnlyEmits.emit (s : State) (e : Event) : OnlyEmits s (s.emit e) [e] :=
  ⟨SameRegisters.emit s e, ⟨rfl, rfl, rfl⟩, fun _ => rfl, rfl⟩

/-- Settles O26: a main pin that is held leaves HW_INIT with the failed acquisition only. -/
theorem bindOfAHeldPinFails : Obligations.BindOfAHeldPinFails :=
  fun s p hm hv ho => ⟨_, exec_bind_of_hwInit (hwInit_mainTaken hm hv ho),
    (OnlyEmits.emit s (.acq p false)).respond .cc .resourceUnavailable 0⟩

/-- A pin acquired and given back has the row it had, whatever event came between (R54, R55). -/
theorem acquired_released_onlyEmits {s : State} {p : PinId} (ho : (s.pin p).owner = .free) (e : Event) :
    OnlyEmits s (pinRelease p ((acquired p s).emit e)) [.acq p true, e, .rel p] where
  registers := ((SameRegisters.acquired p s).trans (SameRegisters.emit _ e)).trans (SameRegisters.pinRelease p _)
  inputs := by simp [keepsInputs, acquired]
  pins q := by
    rw [pinRelease_pin, emit_pin, emit_pin, acquired_pin, acquired_pin, if_pos rfl]
    split
    · next h => rw [h, ← ho]
    · rfl
  events := by simp [emits, acquired]

theorem auxOperand_of_valid {s : State} {a : PinId} (ha : a ≠ noPin) (hv : pinValid s a = true) :
    auxOperand s a = a := if_pos ⟨ha, hv⟩

/-- With the main pin acquired, an aux pin that was held, or is the main pin, is not free (R143). -/
theorem acquired_not_free {s : State} {p x : PinId} (h : x = p ∨ (s.pin x).owner ≠ .free) :
    ((acquired p s).pin x).owner ≠ .free := by
  rw [acquired_pin]
  split
  · simp
  · next hne => exact h.resolve_left hne

/-- Settles O27: HW_INIT acquires the main pin, fails on the aux pin and gives the main pin back. -/
theorem auxFailureRollsBack : Obligations.AuxFailureRollsBack := by
  intro s p hm hv ho hx hxv htaken
  have hinit : hwInit p s.cfgAuxPin s.cfgMode s =
      (.resourceUnavailable, pinRelease p ((acquired p s).emit (.acq s.cfgAuxPin false))) := by
    rw [hwInit_mainAcquired hm hv ho, auxOperand_of_valid hx hxv, hwInitAux_taken hx (acquired_not_free htaken)]
  exact ⟨_, exec_bind_of_hwInit hinit, (acquired_released_onlyEmits ho _).respond .cc .resourceUnavailable 0⟩

/-! BIND up to the engine's answer, and both answers (R144 to R146). -/

/-- The events of HW_INIT steps 2 to 4, with the pins free (R142 to R144). -/
def preparedEvents (p x : PinId) (m : Mode) : List Event :=
  [.acq p true] ++ eventsIf (x ≠ noPin) [.acq x true, .dirOut x 0] ++ eventsIf (m = .drv) [.dirOut p 1] ++
    eventsIf (m = .od) [.dirIn p]

/-- The descriptor of a registration is its mode's (R104). -/
theorem regEvents_eq (m : Mode) (a : EngAnswer) :
    eventsIf (m = .drv) [.reg 0b011 a] ++ eventsIf (m = .od) [.reg 0b111 a] = [.reg (descriptorOf m) a] := by
  cases m <;> rfl

/-- What HW_INIT has done when the engine has answered `a`, with `more` answers left: the pins are acquired and
configured, no register is written. -/
structure Registering (p x : PinId) (a : EngAnswer) (more : List EngAnswer) (s u : State) : Prop where
  registers : SameRegisters s u
  answers : u.answers = more
  draws : u.draws = s.draws
  events : emits s u (preparedEvents p x s.cfgMode ++ [.reg (descriptorOf s.cfgMode) a])
  pins : ∀ q, u.pin q = if q = p then { configuredRow s.cfgMode (s.pin p) with owner := .self }
    else if x ≠ noPin ∧ q = x then { s.pin x with owner := .self, dir := .output, out := 0 } else s.pin q

/-- HW_INIT with its pins free comes to the engine's answer, and goes on as that answer says (R144, R145). -/
theorem hwInit_registering {s : State} {p x : PinId} {a : EngAnswer} {more : List EngAnswer} (hm : s.main = noPin)
    (hv : pinValid s p = true) (ho : (s.pin p).owner = .free) (ha : s.answers = a :: more)
    (hx : x = auxOperand s s.cfgAuxPin) (hfree : x ≠ noPin → x ≠ p ∧ (s.pin x).owner = .free) :
    ∃ u, Registering p x a more s u ∧
      (a = .error → hwInit p s.cfgAuxPin s.cfgMode s = (.registrationFailed, rollback (acquiredPins p x) u)) ∧
      (∀ h, a = .ok h →
        hwInit p s.cfgAuxPin s.cfgMode s = (.ok, hwInitPower (commitBinding p x s.cfgMode h u))) := by
  obtain ⟨t, hinit, hreg, hanswers, hdraws, htrace, hpins⟩ := hwInit_prepared (m := s.cfgMode) hm hv ho hx hfree
  have heng := engRegister_listed (desc := descriptorOf s.cfgMode) (hanswers.trans ha)
  refine ⟨(engRegister (descriptorOf s.cfgMode) t).2, ?_, fun herr => ?_, fun h hok => ?_⟩
  · rw [heng]
    refine ⟨hreg.trans ((SameRegisters.answers t more t.draws).trans (SameRegisters.emit _ _)), rfl, hdraws, ?_, hpins⟩
    exact emits_trans (t := t) htrace rfl
  · rw [hinit, hwInitRegister_error (by rw [heng, herr])]
  · rw [hinit, hwInitRegister_ok (by rw [heng, hok])]

/-- A pin is not the aux operand as it counts. -/
theorem not_auxPin_iff {x q : PinId} : ¬(x ≠ noPin ∧ q = x) ↔ x = noPin ∨ q ≠ x := by
  rw [not_and_or, not_not]

/-- The frame of HW_INIT and HW_EXIT: all pins but the main pin and the aux pin, if there is one. -/
theorem keepsPinsBut_operands {p x : PinId} {s t : State}
    (h : ∀ q, q ≠ p → (x = noPin ∨ q ≠ x) → t.pin q = s.pin q) :
    keepsPinsBut (if x ≠ noPin then [p, x] else [p]) s t := by
  intro q hq
  by_cases hx : x = noPin
  · exact h q (by simpa [hx] using hq) (.inl hx)
  · have hne : q ≠ p ∧ q ≠ x := by simpa [hx] using hq
    exact h q hne.1 (.inr hne.2)

theorem hwInitPower_emits (s : State) :
    emits s (hwInitPower s) (eventsIf s.cfgCap [.cap 1] ++ eventsIf (s.aux ≠ noPin) [.set s.aux 1]) :=
  hwInitPower_trace s

/-- The events of a registration accepted: those before it, then the capability's and the aux pin's (R146). -/
theorem Registering.committed_emits {p x : PinId} {a : EngAnswer} {more : List EngAnswer} {s u : State}
    (h : Registering p x a more s u) (k : Handle) :
    emits s (hwInitPower (commitBinding p x s.cfgMode k u)) (preparedEvents p x s.cfgMode ++
      [.reg (descriptorOf s.cfgMode) a] ++ (eventsIf s.cfgCap [.cap 1] ++ eventsIf (x ≠ noPin) [.set x 1])) := by
  obtain ⟨_, _, _, _, hcap, _⟩ := h.registers.straps
  have hpower := hwInitPower_emits (commitBinding p x s.cfgMode k u)
  rw [show (commitBinding p x s.cfgMode k u).cfgCap = s.cfgCap from hcap] at hpower
  exact emits_trans (t := commitBinding p x s.cfgMode k u) h.events hpower

/-- Settles O28: HW_INIT is accepted by the engine, and leaves the binding that `hwInit_cases` describes. -/
theorem bindSucceeds : Obligations.BindSucceeds := by
  intro s p x h more hm hv ho ha hx hfree
  obtain ⟨u, hreg, _, hok⟩ := hwInit_registering hm hv ho ha hx hfree
  have hinit := hok h rfl
  have hb : Bound p x s.cfgMode s (hwInitPower (commitBinding p x s.cfgMode h u)) := by
    have hcases := hwInit_cases p s.cfgAuxPin s.cfgMode s
    rw [hinit, show auxOperand s s.cfgAuxPin = x from hx.symm] at hcases
    simpa using hcases
  refine ⟨_, exec_bind_of_hwInit hinit, respond_port_same _ _ _ _, ?_⟩
  simp only [respond_main, respond_aux, respond_mode, respond_handle, respond_pwr, respond_pin, respond_answers,
    respond_agenda, respond_draws]
  refine ⟨hb.main, hb.aux, hb.mode, hwInitPower_handle _, hb.pwr, fun hdrv => ?_, fun hod => ?_, hb.auxPin, ?_,
    (hwInitPower_answers _).trans hreg.answers, hb.agenda, (hwInitPower_draws _).trans hreg.draws,
    keepsHold_respond hb.hold _ _ _, keepsStraps_respond hb.straps _ _ _,
    keepsPinsBut_respond (keepsPinsBut_operands hb.others) _ _ _, keepsPortsBut_respond hb.ports hb.teardown _ _ _⟩
  · rw [hb.mainPin, hdrv]
    rfl
  · rw [hb.mainPin, hod]
    rfl
  · have hevents := emits_respond (hreg.committed_emits h) .cc .ok 0
    rw [← regEvents_eq] at hevents
    simpa only [preparedEvents, List.append_assoc] using hevents

/-! The rollback (R202, R203). -/

theorem rollback_pin (held : List PinId) (s : State) (q : PinId) :
    (rollback held s).pin q = if q ∈ held then { s.pin q with owner := .free } else s.pin q := by
  induction held generalizing s with
  | nil => rfl
  | cons p held ih =>
    have hstep : rollback (p :: held) s = rollback held (pinRelease p s) := rfl
    rw [hstep, ih, pinRelease_pin]
    by_cases hqp : q = p
    · subst hqp
      simp
    · simp [hqp]

theorem rollback_emits (held : List PinId) (s : State) : emits s (rollback held s) (held.map .rel) := by
  induction held generalizing s with
  | nil => exact (List.append_nil _).symm
  | cons p held ih => exact emits_trans (t := pinRelease p s) (pinRelease_trace p s) (ih (pinRelease p s))

theorem rollback_answers (held : List PinId) (s : State) : (rollback held s).answers = s.answers := by
  induction held generalizing s with
  | nil => rfl
  | cons p held ih => exact ih (pinRelease p s)

theorem rollback_draws (held : List PinId) (s : State) : (rollback held s).draws = s.draws := by
  induction held generalizing s with
  | nil => rfl
  | cons p held ih => exact ih (pinRelease p s)

theorem SameRegisters.rollback (held : List PinId) (s : State) : SameRegisters s (rollback held s) := by
  induction held generalizing s with
  | nil => exact .refl s
  | cons p held ih => exact (SameRegisters.pinRelease p s).trans (ih (Machine.pinRelease p s))

theorem mem_acquiredPins {p x q : PinId} : q ∈ acquiredPins p x ↔ q = p ∨ (x ≠ noPin ∧ q = x) := by
  unfold acquiredPins
  split
  · next h => simp [h, or_comm]
  · next h => simp [h]

/-- The releases of a failed registration, aux before main (R145). -/
theorem acquiredPins_releases (p x : PinId) :
    (acquiredPins p x).map Event.rel = eventsIf (x ≠ noPin) [.rel x] ++ [.rel p] := by
  by_cases h : x = noPin <;> simp [acquiredPins, eventsIf, h]

/-- What a refused registration leaves: the pins as configured, but free (R145). -/
theorem Registering.rolledBack_pin {p x : PinId} {a : EngAnswer} {more : List EngAnswer} {s u : State}
    (h : Registering p x a more s u) (q : PinId) :
    (rollback (acquiredPins p x) u).pin q = if q = p then { configuredRow s.cfgMode (s.pin p) with owner := .free }
      else if x ≠ noPin ∧ q = x then { s.pin x with owner := .free, dir := .output, out := 0 } else s.pin q := by
  rw [rollback_pin, h.pins]
  simp only [mem_acquiredPins]
  by_cases hqp : q = p
  · simp only [hqp, true_or, if_true]
  · by_cases hqx : x ≠ noPin ∧ q = x
    · simp only [if_neg hqp, if_pos hqx, if_pos (Or.inr hqx)]
    · simp only [if_neg hqp, if_neg hqx, if_neg (not_or.2 ⟨hqp, hqx⟩)]

theorem Registering.rolledBack_emits {p x : PinId} {a : EngAnswer} {more : List EngAnswer} {s u : State}
    (h : Registering p x a more s u) : emits s (rollback (acquiredPins p x) u) (preparedEvents p x s.cfgMode ++
      [.reg (descriptorOf s.cfgMode) a] ++ (eventsIf (x ≠ noPin) [.rel x] ++ [.rel p])) :=
  emits_trans h.events (acquiredPins_releases p x ▸ rollback_emits _ u)

/-- Settles O29: HW_INIT is refused by the engine and rolls back, aux before main. -/
theorem registrationFailureRollsBack : Obligations.RegistrationFailureRollsBack := by
  intro s p x more hm hv ho ha hx hfree
  obtain ⟨u, hreg, herr, _⟩ := hwInit_registering hm hv ho ha hx hfree
  have hkept := hreg.registers.trans (SameRegisters.rollback (acquiredPins p x) u)
  have hpins := hreg.rolledBack_pin
  refine ⟨_, exec_bind_of_hwInit (herr rfl), respond_port_same _ _ _ _, ?_⟩
  simp only [respond_pwr, respond_pin, respond_answers, respond_agenda, respond_draws]
  refine ⟨fun hdrv => ?_, fun hod => ?_, fun hxn => ?_, ?_, (rollback_answers _ _).trans hreg.answers, hkept.agenda,
    (rollback_draws _ _).trans hreg.draws, keepsBinding_respond hkept.binding _ _ _,
    keepsHold_respond hkept.hold _ _ _, hkept.pwr, keepsStraps_respond hkept.straps _ _ _,
    keepsPinsBut_respond (keepsPinsBut_operands fun q hqp hqx => ?_) _ _ _,
    keepsPortsBut_respond hkept.ports hkept.teardown _ _ _⟩
  · rw [hpins, if_pos rfl, hdrv, ← ho]
    rfl
  · rw [hpins, if_pos rfl, hod, ← ho]
    rfl
  · obtain ⟨hxp, hxo⟩ := hfree hxn
    rw [hpins, if_neg hxp, if_pos ⟨hxn, rfl⟩, ← hxo]
  · have hevents := emits_respond hreg.rolledBack_emits .cc .registrationFailed 0
    rw [← regEvents_eq] at hevents
    simpa only [preparedEvents, List.append_assoc, List.cons_append, List.nil_append] using hevents
  · rw [hpins, if_neg hqp, if_neg (not_auxPin_iff.2 hqx)]

/-- Settles O30: HW_INIT succeeds or is rolled back, and the answer follows. -/
theorem failedBindRollsBack : Obligations.FailedBindRollsBack := by
  intro s p
  refine ⟨_, _, exec_bind p s, respond_port_same _ _ _ _, ?_⟩
  rcases hwInit_cases p s.cfgAuxPin s.cfgMode s with ⟨hst, hb⟩ | ⟨hst, hr⟩
  · rw [hst]
    exact ⟨nofun, nofun, keepsHold_respond hb.hold _ _ _, keepsStraps_respond hb.straps _ _ _,
      keepsPortsBut_respond hb.ports hb.teardown _ _ _, fun hne => absurd rfl hne⟩
  · have hothers : keepsPinsBut [p, s.cfgAuxPin] s (hwInit p s.cfgAuxPin s.cfgMode s).2 := by
      intro q hq
      have hne : q ≠ p ∧ q ≠ s.cfgAuxPin := by simpa using hq
      refine hr.others q hne.1 (or_iff_not_imp_left.2 fun hx => ?_)
      rw [(auxOperand_of_ne hx).1]
      exact hne.2
    refine ⟨?_, ?_, keepsHold_respond hr.hold _ _ _, keepsStraps_respond hr.straps _ _ _,
      keepsPortsBut_respond hr.ports hr.teardown _ _ _, fun _ => ⟨keepsBinding_respond hr.binding _ _ _,
      (respond_pwr _ _ _ _).trans hr.pwr, fun q => ?_, fun q => ?_, keepsPinsBut_respond hothers _ _ _⟩⟩
    · rcases hst with ⟨hst, _⟩ | hst | hst | hst <;> rw [hst] <;> exact nofun
    · rcases hst with ⟨hst, _⟩ | hst | hst | hst <;> rw [hst] <;> exact nofun
    · rw [respond_pin, hr.owner]
    · rw [respond_pin, hr.extLow]

/-! UNBIND and TEARDOWN (R147 to R152). -/

/-- Settles O34: UNBIND is HW_EXIT's three steps, then its answer. -/
theorem unbindReleasesTheBinding : Obligations.UnbindReleasesTheBinding := by
  intro s h hm hs hh hax
  have he := hwExitSteps_exited s
  refine ⟨_, exec_unbind_bound hm hs, respond_port_same _ _ _ _, ?_⟩
  simp only [respond_main, respond_aux, respond_mode, respond_handle, respond_pwr, respond_pin]
  refine ⟨he.main, he.aux, he.handle, he.mode, he.pwr, ?_, fun hxn => ?_, ?_, keepsInputs_respond he.inputs _ _ _,
    keepsHold_respond he.hold _ _ _, keepsStraps_respond he.straps _ _ _,
    keepsPinsBut_respond (keepsPinsBut_operands fun q hqm hqx => ?_) _ _ _,
    keepsPortsBut_respond he.ports he.teardown _ _ _⟩
  · rw [he.pins, if_pos (.inl rfl), if_neg fun hc => hax hc.2.symm]
  · rw [he.pins, if_pos (.inr ⟨hxn, rfl⟩), if_pos ⟨hxn, rfl⟩]
  · have hevents := emits_respond (u := hwExitSteps s) he.trace .cc .ok 0
    simpa [hh] using hevents
  · have hqa := not_auxPin_iff.2 hqx
    rw [he.pins, if_neg (not_or.2 ⟨hqm, hqa⟩), if_neg hqa]

/-- Settles O36: a served TEARDOWN of a bound, idle block is HW_EXIT's three steps, as UNBIND is but for its response. -/
theorem teardownIsHwExitIfBound : Obligations.TeardownIsHwExitIfBound := by
  refine ⟨fun s => rfl, fun s ht => ⟨serveTeardown_held, fun hs => ?_⟩⟩
  by_cases hm : s.main = noPin
  · refine ⟨clearTeardown s, serveTeardown_unbound hm, hm, rfl, fun p => ?_, fun _ => rfl, fun hne => absurd hm hne⟩
    cases p <;> rfl
  · have he := hwExitSteps_exited s
    refine ⟨clearTeardown (hwExitSteps s), serveTeardown_bound ht hm hs, he.main, rfl, fun p => ?_,
      fun hnone => absurd hnone hm, fun _ => ⟨_, exec_unbind_bound hm hs, rfl, rfl, rfl, rfl, rfl, rfl, he.hold,
        he.straps, he.inputs⟩⟩
    rw [← he.ports p]
    cases p <;> rfl

/-- Settles O37: HW_EXIT's refusal is its first test, and its callers make that test themselves. -/
theorem hwExitUnboundIsRefused : Obligations.HwExitUnboundIsRefused := by
  refine ⟨fun s hm => if_pos hm, fun s => ?_⟩
  by_cases hm : s.main = noPin
  · exact ⟨⟨_, exec_unbind_unbound hm⟩, _, serveTeardown_unbound hm⟩
  rcases seq_cases s.seq with hs | hs
  · refine ⟨⟨_, exec_unbind_bound hm hs⟩, ?_⟩
    cases ht : s.teardown with
    | false => exact ⟨_, serveTeardown_none ht⟩
    | true => exact ⟨_, serveTeardown_bound ht hm hs⟩
  · exact ⟨⟨_, exec_unbind_held hm hs⟩, _, serveTeardown_held hm hs⟩

/-! The inverse pair (R151). -/

/-- A BIND that answers OK leaves a binding, then answers. -/
theorem bound_of_bind_ok {s t : State} {p : PinId} (h : exec (.bind p) s = .next t) (hok : answered .cc .ok 0 t) :
    ∃ b, Bound p (auxOperand s s.cfgAuxPin) s.cfgMode s b ∧ t = respond .cc .ok 0 b := by
  cases (exec_bind p s).symm.trans h
  have hst := status_of_answered hok
  refine ⟨_, ?_, by rw [hst]⟩
  have hcases := hwInit_cases p s.cfgAuxPin s.cfgMode s
  rw [hst] at hcases
  simpa using hcases

theorem keepsHold_trans {s t u : State} (h : keepsHold s t) (h' : keepsHold t u) : keepsHold s u := by
  obtain ⟨hpend, hseq, helapsed⟩ := h
  obtain ⟨hpend', hseq', helapsed'⟩ := h'
  exact ⟨hpend'.trans hpend, hseq'.trans hseq, helapsed'.trans helapsed⟩

theorem keepsStraps_trans {s t u : State} (h : keepsStraps s t) (h' : keepsStraps t u) : keepsStraps s u := by
  obtain ⟨hboot, hmain, haux, hmode, hcap, hboard⟩ := h
  obtain ⟨hboot', hmain', haux', hmode', hcap', hboard'⟩ := h'
  exact ⟨hboot'.trans hboot, hmain'.trans hmain, haux'.trans haux, hmode'.trans hmode, hcap'.trans hcap,
    hboard'.trans hboard⟩

/-- HW_EXIT, once HW_INIT has answered, gives back every owner that HW_INIT changed (R145, R147). -/
theorem Bound.exited_owner {p x : PinId} {m : Mode} {s b u : State} {st : Status} {v : Value} (hb : Bound p x m s b)
    (he : Exited (respond .cc st v b) u) (q : PinId) : (u.pin q).owner = (s.pin q).owner := by
  rw [he.pins, respond_main, respond_aux, respond_pin, hb.main, hb.aux]
  by_cases hqp : q = p
  · rw [hqp, hb.mainFree]
    exact if_pos (.inl rfl)
  by_cases hqx : x ≠ noPin ∧ q = x
  · rw [hqx.2, (hb.auxFree hqx.1).2]
    exact if_pos (.inr ⟨hqx.1, rfl⟩)
  · rw [hb.others q hqp (not_auxPin_iff.1 hqx)]
    exact if_neg (not_or.2 ⟨hqp, hqx⟩)

/-- HW_EXIT, once HW_INIT has answered, cuts the power HW_INIT switched on (R146, R147). -/
theorem Bound.exited_pwr {p x : PinId} {m : Mode} {s b u : State} {st : Status} {v : Value} (hb : Bound p x m s b)
    (he : Exited (respond .cc st v b) u) (hoff : s.pwr = 0) : u.pwr = s.pwr := by
  obtain ⟨_, _, _, _, hcap, _⟩ := hb.straps
  rw [he.pwr, respond_pwr, respond_cfgCap, hb.pwr, hcap]
  split
  · exact hoff.symm
  · rfl

/-- Settles O38: BIND leaves a binding, UNBIND exits it, and the invariants give the registers of the unbound block. -/
theorem unbindUndoesBind : Obligations.UnbindUndoesBind := by
  intro s t p hi hbind hok
  obtain ⟨b, hb, rfl⟩ := bound_of_bind_ok hbind hok
  obtain ⟨haux, hhandle, hidle⟩ := hi.unbound hb.wasUnbound
  have hbound : (respond .cc .ok 0 b).main ≠ noPin := by
    rw [respond_main, hb.main]
    exact pinValid_ne_noPin hb.valid
  obtain ⟨_, hseq, _⟩ := hb.hold
  have hs : (respond .cc .ok 0 b).seq = .idle := by
    rw [respond_seq, hseq, hidle]
  have he := hwExitSteps_exited (respond .cc .ok 0 b)
  refine ⟨_, exec_unbind_bound hbound hs, respond_port_same _ _ _ _, keepsBinding_respond ?_ _ _ _,
    keepsHold_respond (keepsHold_trans (keepsHold_respond hb.hold _ _ _) he.hold) _ _ _,
    (respond_pwr _ _ _ _).trans (hb.exited_pwr he (hi.powerOff hb.wasUnbound)),
    keepsStraps_respond (keepsStraps_trans (keepsStraps_respond hb.straps _ _ _) he.straps) _ _ _, fun q => ?_⟩
  · exact ⟨he.main.trans hb.wasUnbound.symm, he.aux.trans haux.symm,
      he.mode.trans (hb.mode.trans hi.modeStrap.symm), he.handle.trans hhandle.symm⟩
  · rw [respond_pin, hb.exited_owner he]

end Sys2Proof.Machine
end

section
/-! SUPPORT. The Control Channel (spec/42_control_channel.md R160 to R163): QUERYPIN, UNBIND of an unbound block, and
REBIND as UNBIND then BIND. -/

namespace Sys2Proof.Machine

/-- Settles O32: QUERYPIN is its answer, and an answer changes nothing else. -/
theorem queryAnswersMain : Obligations.QueryAnswersMain :=
  fun s => ⟨_, exec_querypin s, respond_onlyAnswers .cc .ok s.main s⟩

/-- Settles O33: UNBIND of an unbound block is its answer, and an answer changes nothing else. -/
theorem unbindWhileUnboundFails : Obligations.UnbindWhileUnboundFails :=
  fun s hm => ⟨_, exec_unbind_unbound hm, respond_onlyAnswers .cc .notBound 0 s⟩

/-- Settles O31: a BIND that answers OK leaves its pin in MAIN, which QUERYPIN answers. -/
theorem queryReturnsTheBoundPin : Obligations.QueryReturnsTheBoundPin := by
  intro s t p hbind hok
  obtain ⟨b, hb, rfl⟩ := bound_of_bind_ok hbind hok
  have hmain : (respond .cc .ok 0 b).main = p := (respond_main _ _ _ b).trans hb.main
  have hquery := exec_querypin (respond .cc .ok 0 b)
  rw [hmain] at hquery
  exact ⟨_, hquery, respond_port_same _ _ _ _⟩

/-! REBIND (R163). -/

/-- After HW_EXIT the pins of the old binding are FREE, and so is every pin that was (R147). -/
theorem Exited.owner_free {s t : State} (he : Exited s t) {q : PinId}
    (h : (q = s.main ∨ (s.aux ≠ noPin ∧ q = s.aux)) ∨ (s.pin q).owner = .free) : (t.pin q).owner = .free := by
  rw [he.pins]
  show (if _ then Owner.free else (s.pin q).owner) = .free
  split
  · rfl
  · next hkept => exact h.resolve_left hkept

/-- The aux operand of the next BIND is the aux pin of the binding that HW_EXIT ended: both are the
strap's (R22, R143). -/
theorem Exited.auxOperand_eq {s t : State} (he : Exited s t) (hi : s.Inv) (hm : s.main ≠ noPin) :
    auxOperand t t.cfgAuxPin = s.aux := by
  obtain ⟨_, _, hcfgAux, _, _, hboard⟩ := he.straps
  rw [auxOperand_congr hboard, hcfgAux, ← hi.auxStrap hm]

/-- A pin that is FREE is neither pin of the binding (R21, R22). -/
theorem State.Inv.ne_of_free {s : State} (hi : s.Inv) (hm : s.main ≠ noPin) {q : PinId} (ho : (s.pin q).owner = .free) :
    s.main ≠ q ∧ (s.aux ≠ noPin → s.aux ≠ q) := by
  have hne : ∀ p, (s.pin p).owner = .self → p ≠ q := by
    rintro p hself rfl
    rw [ho] at hself
    cases hself
  obtain ⟨_, hmain⟩ := hi.mainHeld hm
  refine ⟨hne _ hmain, fun hx => ?_⟩
  obtain ⟨_, _, _, haux, _⟩ := hi.auxHeld hx
  exact hne _ haux

/-- After HW_EXIT and its answer, BIND of a pin that was FREE succeeds if the engine accepts: the aux pin it takes is the
one just released (R151, R163). -/
theorem Exited.bind_succeeds {s e : State} {q : PinId} {h : Handle} {more : List EngAnswer} (he : Exited s e)
    (hi : s.Inv) (hm : s.main ≠ noPin) (hv : pinValid s q = true) (ho : (s.pin q).owner = .free)
    (ha : s.answers = .ok h :: more) :
    ∃ b, Bound q s.aux e.cfgMode (respond .cc .ok 0 e) b ∧ b.handle = some h ∧
      exec (.bind q) (respond .cc .ok 0 e) = .next (respond .cc .ok 0 b) := by
  obtain ⟨_, _, _, _, _, hboard⟩ := he.straps
  obtain ⟨_, hanswers, _⟩ := he.inputs
  obtain ⟨_, hauxNe⟩ := hi.ne_of_free hm ho
  have hx : auxOperand (respond .cc .ok 0 e) (respond .cc .ok 0 e).cfgAuxPin = s.aux := by
    rw [auxOperand_congr (respond_board _ _ _ _), respond_cfgAuxPin, he.auxOperand_eq hi hm]
  have hvalid : pinValid (respond .cc .ok 0 e) q = true := by
    rwa [pinValid_congr ((respond_board _ _ _ _).trans hboard)]
  have hfree : ∀ p, (p = s.main ∨ (s.aux ≠ noPin ∧ p = s.aux)) ∨ (s.pin p).owner = .free →
      ((respond .cc .ok 0 e).pin p).owner = .free := fun p hp => by
    rw [respond_pin, he.owner_free hp]
  obtain ⟨u, hbind, hok, _, _, _, hhandle, _⟩ := bindSucceeds _ q s.aux h more ((respond_main _ _ _ _).trans he.main)
    hvalid (hfree q (.inr ho)) ((respond_answers _ _ _ _).trans (hanswers.trans ha)) hx.symm
    fun hxn => ⟨hauxNe hxn, hfree s.aux (.inl (.inr ⟨hxn, rfl⟩))⟩
  obtain ⟨b, hb, rfl⟩ := bound_of_bind_ok hbind hok
  rw [hx, respond_cfgMode] at hb
  exact ⟨b, hb, (respond_handle _ _ _ _).symm.trans hhandle, hbind⟩

/-- Settles O39: UNBIND frees the old main pin, which is neither operand of the BIND that follows, so ENV can take it. -/
theorem rebindReleasesTheOldPin : Obligations.RebindReleasesTheOldPin := by
  intro s q h more hi hm hs hv ho ha
  have he := hwExitSteps_exited s
  obtain ⟨b, hb, hhandle, hbind⟩ := he.bind_succeeds hi hm hv ho ha
  obtain ⟨hmainNe, _⟩ := hi.ne_of_free hm ho
  have hmainAux : s.aux = noPin ∨ s.main ≠ s.aux := or_iff_not_imp_left.2 fun hx => by
    obtain ⟨_, hne, _⟩ := hi.auxHeld hx
    exact hne.symm
  have hfree : ((respond .cc .ok 0 b).pin s.main).owner = .free := by
    rw [respond_pin, hb.others s.main hmainNe hmainAux, respond_pin, he.owner_free (.inl (.inl rfl))]
  have hvalid : pinValid (respond .cc .ok 0 b) s.main = true := by
    obtain ⟨_, _, _, _, _, hboard⟩ := he.straps
    obtain ⟨_, _, _, _, _, hboard'⟩ := hb.straps
    obtain ⟨hv', _⟩ := hi.mainHeld hm
    rwa [pinValid_congr ((respond_board _ _ _ _).trans (hboard'.trans ((respond_board _ _ _ _).trans hboard)))]
  obtain ⟨hacquire, _⟩ := environmentMovesTakeEffect (respond .cc .ok 0 b) s.main hvalid
  obtain ⟨v, hperform, hrow, _⟩ := hacquire hfree
  exact ⟨_, _, v, exec_unbind_bound hm hs, hbind, respond_port_same _ _ _ _, (respond_main _ _ _ _).trans hb.main,
    (respond_handle _ _ _ _).trans hhandle, (respond_aux _ _ _ _).trans hb.aux, hfree, hperform, by rw [hrow]⟩

end Sys2Proof.Machine
end

section
/-! SUPPORT. The Power Hooks (spec/43_power_hooks.md R180 to R183): the switch of the capability, then the answer on PM. -/

namespace Sys2Proof.Machine

/-- A hook is the switch of the capability, then its answer (R180, R181). -/
theorem exec_hook {i : Instr} {v : Bit} (hi : (i = .suspend ∧ v = 0) ∨ (i = .resume ∧ v = 1)) (s : State) :
    exec i s = .next (respond .pm .ok 0 (hookCap v s)) := by
  rcases hi with ⟨rfl, rfl⟩ | ⟨rfl, rfl⟩
  · exact exec_suspend s
  · exact exec_resume s

/-- PWR after the hook that switches the capability to this value (R180 to R182). -/
def hookPower (v : Bit) (s : State) : Bit := if s.cfgCap = true ∧ s.main ≠ noPin then v else s.pwr

theorem OnlyEmits.refl (s : State) : OnlyEmits s s [] :=
  ⟨SameRegisters.refl s, ⟨rfl, rfl, rfl⟩, fun _ => rfl, (List.append_nil _).symm⟩

/-- Apart from its new PWR, a hook only emits the event of the capability, and that only where it acts (R180 to R182). -/
theorem hookCap_onlyEmits (v : Bit) (s : State) :
    OnlyEmits { s with pwr := hookPower v s } (hookCap v s)
      (eventsIf (s.cfgCap = true ∧ s.main ≠ noPin) [.cap v]) := by
  by_cases hacts : s.cfgCap = true ∧ s.main ≠ noPin
  · rw [hookCap_acts hacts, hookPower, if_pos hacts, eventsIf, if_pos (decide_eq_true hacts)]
    exact OnlyEmits.emit _ _
  · rw [hookCap_idle hacts, hookPower, if_neg hacts, eventsIf, if_neg (by simpa using hacts)]
    exact OnlyEmits.refl _

/-- Settles O40: a hook only emits on top of its new PWR, and the answer on PM keeps the rest. -/
theorem hooksSwitchTheCapability : Obligations.HooksSwitchTheCapability := by
  intro s i v hi
  obtain ⟨hanswered, hevents, hinputs, hbinding, hhold, hpwr, hstraps, hpins, hports⟩ :=
    (hookCap_onlyEmits v s).respond .pm .ok 0
  exact ⟨_, exec_hook hi s, hanswered, hpwr, hevents, hinputs, hbinding, hhold, hstraps, hpins, hports⟩

/-! SUSPEND, then RESUME. -/

@[simp] theorem hookCap_main (v : Bit) (s : State) : (hookCap v s).main = s.main := by
  unfold hookCap; split <;> rfl
@[simp] theorem hookCap_cfgCap (v : Bit) (s : State) : (hookCap v s).cfgCap = s.cfgCap := by
  unfold hookCap; split <;> rfl
@[simp] theorem hookCap_pins (v : Bit) (s : State) : (hookCap v s).pins = s.pins := by
  unfold hookCap; split <;> rfl
@[simp] theorem hookCap_pwr (v : Bit) (s : State) : (hookCap v s).pwr = hookPower v s :=
  (hookCap_onlyEmits v s).registers.pwr

/-- A hook acts on what the hook before it acted on, so its own value is the one that counts. -/
theorem hookPower_after_hook (v w : Bit) (p : PortId) (st : Status) (x : Value) (s : State) :
    hookPower v (respond p st x (hookCap w s)) = hookPower v s := by
  simp only [hookPower, respond_cfgCap, respond_main, respond_pwr, hookCap_cfgCap, hookCap_main, hookCap_pwr]
  split <;> rfl

/-- RESUME leaves PWR alone where the bound block with the capability is powered already (R181). -/
theorem hookPower_one_of_powered {s : State} (h : s.cfgCap = true → s.main ≠ noPin → s.pwr = 1) :
    hookPower 1 s = s.pwr := by
  unfold hookPower
  split
  · next hacts => exact (h hacts.1 hacts.2).symm
  · rfl

/-- Settles O41: RESUME after SUSPEND leaves the PWR that RESUME alone would, and a powered block has that PWR. -/
theorem resumeRestoresPower : Obligations.ResumeRestoresPower := by
  intro s h
  refine ⟨_, _, exec_suspend s, exec_resume _, by simp, ?_, by simp⟩
  rw [respond_pwr, hookCap_pwr, hookPower_after_hook, hookPower_one_of_powered h]

end Sys2Proof.Machine
end

section
/-! SUPPORT. The control state (spec/45_command_laws.md R262, R263): what MAIN and SEQ make of it, and the effects that change
it. -/

namespace Sys2Proof.Machine

theorem control_unbound {s : State} (hm : s.main = noPin) (hs : s.seq = .idle) : s.control = .unbound := by
  simp [State.control, hm, hs]

theorem control_bound {s : State} (hm : s.main ≠ noPin) (hs : s.seq = .idle) : s.control = .bound := by
  simp [State.control, beq_false_of_ne hm, hs]

theorem control_hold {s : State} (hm : s.main ≠ noPin) (hs : s.seq = .puHold) : s.control = .hold := by
  simp [State.control, beq_false_of_ne hm, hs]

/-- The control state depends on MAIN and SEQ only. -/
theorem control_congr {s t : State} (hmain : t.main = s.main) (hseq : t.seq = s.seq) : t.control = s.control := by
  simp only [State.control, hmain, hseq]

theorem control_of_keeps {s t : State} (hb : keepsBinding s t) (hh : keepsHold s t) : t.control = s.control := by
  obtain ⟨hmain, _⟩ := hb
  obtain ⟨_, hseq, _⟩ := hh
  exact control_congr hmain hseq

theorem Undisturbed.control {s t : State} (h : Undisturbed s t) : t.control = s.control :=
  control_of_keeps h.binding h.hold

/-- A HW_INIT fails and changes nothing of the control state, or takes an unbound, idle block to bound. -/
theorem hwInit_control {s : State} (hi : s.Inv) (p a : PinId) (m : Mode) :
    (hwInit p a m s).2.control = s.control ∨ (s.control = .unbound ∧ (hwInit p a m s).2.control = .bound) := by
  rcases hwInit_cases p a m s with ⟨_, hb⟩ | ⟨_, hr⟩
  · have hm := hb.wasUnbound
    obtain ⟨_, _, hs⟩ := hi.unbound hm
    obtain ⟨_, hseq, _⟩ := hb.hold
    have hbound : (hwInit p a m s).2.main ≠ noPin := by
      rw [hb.main]
      exact pinValid_ne_noPin hb.valid
    exact .inr ⟨control_unbound hm hs, control_bound hbound (hseq.trans hs)⟩
  · exact .inl (control_of_keeps hr.binding hr.hold)

/-- HW_EXIT takes an idle block to unbound. -/
theorem Exited.control {s t : State} (h : Exited s t) (hs : s.seq = .idle) : t.control = .unbound := by
  obtain ⟨_, hseq, _⟩ := h.hold
  exact control_unbound h.main (hseq.trans hs)

/-- Settles O49: a move's ending keeps the control state; of its effects only HW_INIT, HW_EXIT, the firing SET_PULLUP and
the expiry change it, each from and to one control state. -/
theorem controlTransitions : Obligations.ControlTransitions := by
  intro s t m hi hreset h
  obtain ⟨u, heff, hend⟩ := perform_effect h
  rw [hend.undisturbed.control]
  cases heff with
  | nothing => exact .inl rfl
  | readMain => exact .inl (Undisturbed.pinGet s.main s).control
  | writeMain v => exact .inl (control_congr (writeMain_main v s) (writeMain_seq v s))
  | arm => exact .inl rfl
  | fire hm hod hs hp hreq =>
    exact .inr (.inr (.inr (.inl
      ⟨control_bound hm hs, control_hold ((startHold_main s).trans_ne hm) rfl, rfl, hreq, hod, hp⟩)))
  | expire hs =>
    obtain ⟨hm, _⟩ := hi.hold hs
    have hended : (holdEnded s).control = .bound := control_bound hm rfl
    exact .inr (.inr (.inr (.inr ⟨control_hold hm hs, hended, rfl⟩)))
  | tick => exact .inl rfl
  | hook => exact .inl rfl
  | bind p hreq =>
    rcases hwInit_control hi p s.cfgAuxPin s.cfgMode with hsame | ⟨hfrom, hto⟩
    · exact .inl hsame
    · exact .inr (.inl ⟨hfrom, hto, rfl, p, hreq⟩)
  | exit hm hs hserved =>
    exact .inr (.inr (.inl ⟨control_bound hm hs, (hwExitSteps_exited s).control hs, hserved⟩))
  | env p r _ _ hr => exact .inl (Undisturbed.writePin hr).control
  | reset d => exact absurd rfl (hreset d)

end Sys2Proof.Machine
end

section
/-! SUPPORT. Who may change what (spec/60_exceptions.md R211): the engine with its timer, the Power Hooks, and the others. -/

namespace Sys2Proof.Machine

/-- The moves of the engine and its timer, and the issue of a request on any port. -/
def Move.ofEngine (m : Move) : Prop := m = .serve .bt ∨ m = .puExpire ∨ m = .tick ∨ ∃ p w, m = .issue p w

theorem Move.ofEngine.not_isEnv {m : Move} (h : m.ofEngine) : ¬m.isEnv := by
  rcases h with rfl | rfl | rfl | ⟨p, w, rfl⟩ <;> simp [Move.isEnv]

theorem keepsBinding_trans {s t u : State} (h : keepsBinding s t) (h' : keepsBinding t u) : keepsBinding s u := by
  obtain ⟨hmain, haux, hmode, hhandle⟩ := h
  obtain ⟨hmain', haux', hmode', hhandle'⟩ := h'
  exact ⟨hmain'.trans hmain, haux'.trans haux, hmode'.trans hmode, hhandle'.trans hhandle⟩

/-- An ending touches no pin. -/
theorem MoveEnding.pin {u t : State} (h : MoveEnding u t) (q : PinId) : t.pin q = u.pin q := by
  cases h with
  | silent => rfl
  | answer p st v => exact respond_pin p st v u q
  | issue p w => exact setPort_pin u p _ q
  | signal => rfl

/-! The engine. -/

/-- Of the whole pin table, only direction and level of the main pin may differ. -/
def drivesOnlyMain (s t : State) : Prop :=
  ∃ d v, ∀ q, t.pin q = if q = s.main then { s.pin s.main with dir := d, out := v } else s.pin q

theorem drivesOnlyMain_of_pins {s t : State} (h : ∀ q, t.pin q = s.pin q) : drivesOnlyMain s t := by
  refine ⟨(s.pin s.main).dir, (s.pin s.main).out, fun q => ?_⟩
  rw [h]
  split
  · next hq => rw [hq]
  · rfl

theorem writeMain_drivesOnlyMain (v : Bit) (s : State) : drivesOnlyMain s (writeMain v s) := by
  rcases writeMain_cases v s with ⟨_, h⟩ | ⟨_, _, h⟩ | ⟨_, _, h⟩ <;> rw [h]
  · exact ⟨_, _, pinSet_pin s.main v s⟩
  · exact ⟨_, _, pinDirIn_pin s.main s⟩
  · exact ⟨_, _, pinDirOut_pin s.main 0 s⟩

theorem drivesOnlyMain.pinsBut {s t : State} (h : drivesOnlyMain s t) : keepsPinsBut [s.main] s t := by
  obtain ⟨_, _, h⟩ := h
  exact fun q hq => (h q).trans (if_neg fun hmain => hq (List.mem_singleton.2 hmain))

theorem drivesOnlyMain.mainRow {s t : State} (h : drivesOnlyMain s t) :
    (t.pin s.main).owner = (s.pin s.main).owner ∧ (t.pin s.main).extLow = (s.pin s.main).extLow := by
  obtain ⟨_, _, h⟩ := h
  rw [h, if_pos rfl]
  exact ⟨rfl, rfl⟩

theorem drivesOnlyMain.owner {s t : State} (h : drivesOnlyMain s t) (q : PinId) :
    (t.pin q).owner = (s.pin q).owner := by
  by_cases hq : q = s.main
  · rw [hq, h.mainRow.1]
  · rw [h.pinsBut q (by simpa using hq)]

/-- The effect of an engine's move, said once: nothing outside the transfer's frame, and of the pins only the main one's
direction and level. -/
theorem MoveEffect.ofEngine {m : Move} {s u : State} (h : MoveEffect m s u) (hm : m.ofEngine) :
    TransferFrame s u ∧ drivesOnlyMain s u := by
  have same : drivesOnlyMain s s := drivesOnlyMain_of_pins fun _ => rfl
  cases h with
  | nothing => exact ⟨.refl s, same⟩
  | readMain =>
    obtain ⟨v, n, hget⟩ := pinGet_cases s.main s
    exact ⟨(TransferBody.pinGet s.main s).frame, by rw [hget]; exact same⟩
  | writeMain v => exact ⟨(TransferBody.writeMain v s).frame, writeMain_drivesOnlyMain v s⟩
  | arm d => exact ⟨armed_frame s d, same⟩
  | fire => exact ⟨startHold_frame s, _, _, startHold_pin s⟩
  | expire => exact ⟨.of_fields s _ _ _ _ _ _ _, _, _, holdEnded_pin s⟩
  | tick => exact ⟨.of_fields s _ _ _ _ _ _ _, same⟩
  | hook => simp [Move.ofEngine] at hm
  | bind => simp [Move.ofEngine] at hm
  | exit _ _ hserved => rcases hserved with ⟨rfl, _⟩ | ⟨rfl, _⟩ <;> simp [Move.ofEngine] at hm
  | env _ _ henv => exact absurd henv hm.not_isEnv
  | reset => simp [Move.ofEngine] at hm

/-- R211 for the engine: neither the effect of its move nor the ending leaves its rights. -/
theorem perform_ofEngine {m : Move} {s t : State} (h : perform m s = .next t) (hm : m.ofEngine) :
    keepsBinding s t ∧ t.pwr = s.pwr ∧ keepsStraps s t ∧ drivesOnlyMain s t := by
  obtain ⟨u, heff, hend⟩ := perform_effect h
  obtain ⟨hframe, d, v, hpins⟩ := heff.ofEngine hm
  have hquiet := hend.undisturbed
  exact ⟨keepsBinding_trans hframe.binding hquiet.binding, hquiet.pwr.trans hframe.pwr,
    keepsStraps_trans hframe.straps hquiet.straps, d, v, fun q => (hend.pin q).trans (hpins q)⟩

/-! The Power Hooks. -/

/-- The effect of serving PM, said once: PWR and the trace. -/
theorem MoveEffect.ofPowerHooks {s u : State} (h : MoveEffect (.serve .pm) s u) :
    ∃ v l, u = { s with pwr := v, trace := l } := by
  generalize hm : Move.serve .pm = m at h
  cases h with
  | nothing => exact ⟨s.pwr, s.trace, rfl⟩
  | hook v => exact ⟨v, _, rfl⟩
  | exit _ _ hserved => rcases hserved with ⟨rfl, _⟩ | ⟨rfl, _⟩ <;> cases hm
  | env _ _ henv => subst hm; simp [Move.isEnv] at henv
  | _ => cases hm

/-- R211 for the Power Hooks: everything but PWR is kept, ports and trace aside. -/
theorem perform_servePm {s t : State} (h : perform (.serve .pm) s = .next t) :
    keepsBinding s t ∧ keepsHold s t ∧ keepsStraps s t ∧ keepsPinsBut [] s t := by
  obtain ⟨u, heff, hend⟩ := perform_effect h
  obtain ⟨v, l, rfl⟩ := heff.ofPowerHooks
  have hquiet := hend.undisturbed
  exact ⟨hquiet.binding, hquiet.hold, hquiet.straps, fun q _ => hend.pin q⟩

/-! The binding and the pins that the block holds. -/

/-- MAIN, AUX, MODE, HANDLE and which pins the block holds are kept. -/
def keepsHoldings (s t : State) : Prop :=
  keepsBinding s t ∧ ∀ q, (s.pin q).owner = .self ↔ (t.pin q).owner = .self

theorem keepsHoldings_of_owner {s t : State} (hb : keepsBinding s t)
    (howner : ∀ q, (t.pin q).owner = (s.pin q).owner) : keepsHoldings s t :=
  ⟨hb, fun q => by rw [howner]⟩

theorem Undisturbed.holdings {s t : State} (h : Undisturbed s t) : keepsHoldings s t :=
  ⟨h.binding, fun q => ⟨fun hq => (h.held q hq).1, h.noneTaken q⟩⟩

theorem perform_ofEngine_holdings {m : Move} {s t : State} (h : perform m s = .next t) (hm : m.ofEngine) :
    keepsHoldings s t := by
  obtain ⟨hbinding, _, _, hdrives⟩ := perform_ofEngine h hm
  exact keepsHoldings_of_owner hbinding hdrives.owner

theorem perform_servePm_holdings {s t : State} (h : perform (.serve .pm) s = .next t) : keepsHoldings s t := by
  obtain ⟨hbinding, _, _, hpins⟩ := perform_servePm h
  exact keepsHoldings_of_owner hbinding fun q => by rw [hpins q List.not_mem_nil]

theorem perform_env_holdings {m : Move} {s t : State} (h : perform m s = .next t) (hm : m.isEnv) :
    keepsHoldings s t := by
  obtain ⟨u, hu, hquiet, _⟩ := env_undisturbed hm s
  cases hu.symm.trans h
  exact hquiet.holdings

/-- R211: holdings change by serving CC, by TEARDOWN or by RESET only. -/
theorem perform_holdings {m : Move} {s t : State} (h : perform m s = .next t) :
    keepsHoldings s t ∨ m = .serve .cc ∨ m = .serveTeardown ∨ ∃ d, m = .reset d := by
  cases m with
  | issue p w => exact .inl (perform_ofEngine_holdings h (.inr (.inr (.inr ⟨p, w, rfl⟩))))
  | serve p =>
    cases p with
    | cc => exact .inr (.inl rfl)
    | bt => exact .inl (perform_ofEngine_holdings h (.inl rfl))
    | pm => exact .inl (perform_servePm_holdings h)
  | serveTeardown => exact .inr (.inr (.inl rfl))
  | tick => exact .inl (perform_ofEngine_holdings h (.inr (.inr (.inl rfl))))
  | puExpire => exact .inl (perform_ofEngine_holdings h (.inr (.inl rfl)))
  | teardown => cases h; exact .inl (MoveEnding.signal s true).undisturbed.holdings
  | reset d => exact .inr (.inr (.inr ⟨d, rfl⟩))
  | envAcquire p => exact .inl (perform_env_holdings h (.inl ⟨p, rfl⟩))
  | envRelease p => exact .inl (perform_env_holdings h (.inr (.inl ⟨p, rfl⟩)))
  | envDrive p d v => exact .inl (perform_env_holdings h (.inr (.inr (.inl ⟨p, d, v, rfl⟩))))
  | envLine p low => exact .inl (perform_env_holdings h (.inr (.inr (.inr ⟨p, low, rfl⟩))))

/-- Settles O48: the rights of the engine, of the Power Hooks, and of whoever changes the block's holdings. -/
theorem rightsOfTheRequesters : Obligations.RightsOfTheRequesters := by
  intro s t m h
  refine ⟨fun hm => ?_, ?_, (perform_holdings h).resolve_left⟩
  · obtain ⟨hbinding, hpwr, hstraps, hdrives⟩ := perform_ofEngine h hm
    exact ⟨hbinding, hpwr, hstraps, hdrives.pinsBut, hdrives.mainRow⟩
  · rintro rfl
    exact perform_servePm h

end Sys2Proof.Machine
end

section
/-! SUPPORT. RESET with a static main pin (spec/70_reset_and_hazards.md R230, R233, R234): STARTUP is a HW_INIT of the unbound,
idle block, so it ends unbound or bound, and it is a BIND but for BOOT and the answer. -/

namespace Sys2Proof.Machine

/-- With a static pin STARTUP is HW_INIT with the straps, its status in BOOT (R233). -/
theorem performReset_of_hwInit {d : Descriptor} {s u : State} {st : Status} (hd : d.mainPin ≠ noPin)
    (hinit : hwInit d.mainPin d.auxPin d.mode (resetRegisters d s) = (st, u)) :
    performReset d s = { u with boot := st.code } := by
  have hstartup : performReset d s = { (hwInit d.mainPin d.auxPin d.mode (resetRegisters d s)).2 with
      boot := (hwInit d.mainPin d.auxPin d.mode (resetRegisters d s)).1.code } := if_neg hd
  rw [hstartup, hinit]

/-- A RESET without a static pin differs from one with it, before STARTUP, in CFG_MAIN_PIN and BOOT only. -/
theorem performReset_withoutPin (d : Descriptor) (s : State) :
    performReset { d with mainPin := noPin } s = rebooted noPin Status.ok.code (resetRegisters d s) :=
  performReset_unbound rfl s

/-- What HW_INIT leaves alone whatever its outcome: the straps, the ports and a pending TEARDOWN (R145, R202). -/
theorem hwInit_frame (p a : PinId) (m : Mode) (s : State) :
    keepsStraps s (hwInit p a m s).2 ∧ (∀ q, (hwInit p a m s).2.port q = s.port q) ∧
      (hwInit p a m s).2.teardown = s.teardown := by
  rcases hwInit_cases p a m s with ⟨_, hb⟩ | ⟨_, hr⟩
  · exact ⟨hb.straps, hb.ports, hb.teardown⟩
  · exact ⟨hr.straps, hr.ports, hr.teardown⟩

/-- HW_INIT of an unbound block never reports AlreadyBound (R141). -/
theorem hwInit_ne_alreadyBound {s : State} (hm : s.main = noPin) (p a : PinId) (m : Mode) :
    (hwInit p a m s).1 ≠ .alreadyBound := by
  rcases hwInit_cases p a m s with ⟨h, _⟩ | ⟨⟨_, h⟩ | h | h | h, _⟩
  · simp [h]
  · exact absurd hm h
  all_goals simp [h]

/-- HW_INIT of an unbound, idle block ends unbound or bound, whatever the pin table. -/
theorem hwInit_unbound_or_bound {s : State} (hm : s.main = noPin) (hs : s.seq = .idle) (p a : PinId) (m : Mode) :
    (hwInit p a m s).2.control = .unbound ∨ (hwInit p a m s).2.control = .bound := by
  rcases hwInit_cases p a m s with ⟨_, hb⟩ | ⟨_, hr⟩
  · obtain ⟨_, hseq, _⟩ := hb.hold
    exact .inr (control_bound (hb.main.trans_ne (pinValid_ne_noPin hb.valid)) (hseq.trans hs))
  · exact .inl ((control_of_keeps hr.binding hr.hold).trans (control_unbound hm hs))

/-- Settles O43: STARTUP and the BIND are one HW_INIT, from states that differ in CFG_MAIN_PIN and BOOT only, which HW_INIT
neither reads nor writes; STARTUP then writes BOOT, and BIND answers. -/
theorem startupIsABind : Obligations.StartupIsABind := by
  intro s d hd
  have hframe := hwInit_frame d.mainPin d.auxPin d.mode (resetRegisters d s)
  have hst := hwInit_ne_alreadyBound (s := resetRegisters d s) rfl d.mainPin d.auxPin d.mode
  have hbind := rebooted_hwInit noPin Status.ok.code d.mainPin d.auxPin d.mode (resetRegisters d s)
  rcases hinit : hwInit d.mainPin d.auxPin d.mode (resetRegisters d s) with ⟨st, u⟩
  rw [hinit] at hframe hst hbind
  obtain ⟨⟨_, hmainPin, hauxPin, hmode, hcap, hboard⟩, hports, hteardown⟩ := hframe
  have hidle : ∀ p, State.port { u with boot := st.code } p = ⟨none, none⟩ := by
    intro p
    cases p
    · exact hports .cc
    · exact hports .bt
    · exact hports .pm
  refine ⟨_, { u with boot := st.code }, _, st, congrArg Host.Outcome.next (performReset_withoutPin d s),
    congrArg Host.Outcome.next (performReset_of_hwInit hd hinit), exec_bind_of_hwInit hbind, respond_port_same _ _ _ _,
    rfl, hst, ?_, ?_, ?_, ?_, ?_, hmainPin, hauxPin, hmode, hcap, hboard, hteardown, hidle, ?_⟩
  all_goals simp [keepsBinding, keepsHold, keepsInputs, emits, rebooted]

/-- Settles O50: the registers of RESET are those of an unbound, idle block; STARTUP is nothing without a static pin, and
else a HW_INIT. -/
theorem resetEndsUnboundOrBound : Obligations.ResetEndsUnboundOrBound := by
  intro s d
  refine ⟨_, rfl, ?_⟩
  by_cases hd : d.mainPin = noPin
  · have hunbound : (performReset d s).control = .unbound := by
      rw [performReset_unbound hd]
      exact control_unbound rfl rfl
    exact ⟨.inl hunbound, fun _ => hunbound⟩
  · have hcontrol : (performReset d s).control =
        (hwInit d.mainPin d.auxPin d.mode (resetRegisters d s)).2.control := by
      rw [performReset_of_hwInit hd rfl]
      exact control_congr rfl rfl
    rw [hcontrol]
    exact ⟨hwInit_unbound_or_bound rfl rfl d.mainPin d.auxPin d.mode, fun h => absurd h hd⟩

end Sys2Proof.Machine
end
